-- ==== Sys2Proof/Word.lean ====
section
/-! DEFINITION. The words of the machine (spec 00_scope R6, R8): every value is unsigned. -/

namespace Sys2Proof

/-- One byte: a register, a timer, a cell of memory. -/
abbrev Byte := BitVec 8

/-- One 16-bit value: the program counter, the index register, an instruction word, a return address. -/
abbrev Word := BitVec 16

/-- The 12-bit operand `nnn` (R10). -/
abbrev Addr12 := BitVec 12

/-- Four bits of an instruction word (R10). -/
abbrev Nibble := BitVec 4

/-- A register number: every value of a 4-bit register field names one (R13). -/
abbrev Reg := Fin 16

end Sys2Proof
end

