-- ==== Sys2Proof/Syntax.lean ====
section
/-! DEFINITION. The 34 instructions of spec 30_encoding R61, one constructor per row of
spec/opcode_table.json, in its order. -/

namespace Sys2Proof

/-- `x`, `y` are register numbers, `nnn` and `kk` the operands of R59, `n` the sprite height of Dxyn.
`ignored` is the low nibble of 5xyN and 9xyN, which is not decoded (R63): it is kept so that an
instruction says which word it stands for, and no meaning reads it. -/
inductive Instr where
  | cls
  | ret
  | jp      (nnn : Addr12)
  | call    (nnn : Addr12)
  | seImm   (x : Reg) (kk : Byte)
  | sneImm  (x : Reg) (kk : Byte)
  | seReg   (x y : Reg) (ignored : Nibble)
  | ldImm   (x : Reg) (kk : Byte)
  | addImm  (x : Reg) (kk : Byte)
  | ldReg   (x y : Reg)
  | orReg   (x y : Reg)
  | andReg  (x y : Reg)
  | xorReg  (x y : Reg)
  | addReg  (x y : Reg)
  | subReg  (x y : Reg)
  | shr     (x y : Reg)
  | subn    (x y : Reg)
  | shl     (x y : Reg)
  | sneReg  (x y : Reg) (ignored : Nibble)
  | ldI     (nnn : Addr12)
  | jpV0    (nnn : Addr12)
  | rnd     (x : Reg) (kk : Byte)
  | drw     (x y : Reg) (n : Nat)
  | skp     (x : Reg)
  | sknp    (x : Reg)
  | ldVxDt  (x : Reg)
  | ldVxK   (x : Reg)
  | ldDtVx  (x : Reg)
  | ldStVx  (x : Reg)
  | addI    (x : Reg)
  | ldF     (x : Reg)
  | ldB     (x : Reg)
  | ldMemVx (x : Reg)
  | ldVxMem (x : Reg)
  deriving DecidableEq, Repr

end Sys2Proof
end

