-- ==== Sys2Proof/Decode.lean ====
section
/-! DEFINITION. Decoding and encoding (spec 30_encoding). The decoder is the opcode map of R61: a word selects
the row whose masked bits it matches, and a word that selects none is UNDEFINED (R62). Behind it stand the case
analysis of R60, as a second reading of the same rules, and the encoder. -/

namespace Sys2Proof

/-! ### The fields of a word (R10) -/

/-- `n1 = op[15:12]`. -/
def n1 (op : Word) : Nibble := op.extractLsb' 12 4
/-- `n2 = op[11:8]`. -/
def n2 (op : Word) : Nibble := op.extractLsb' 8 4
/-- `n3 = op[7:4]`. -/
def n3 (op : Word) : Nibble := op.extractLsb' 4 4
/-- `n4 = op[3:0]`. -/
def n4 (op : Word) : Nibble := op.extractLsb' 0 4

/-- The register number in a nibble. -/
def regOf (b : Nibble) : Reg := b.toFin

/-- `x = n2`. -/
def fieldX (op : Word) : Reg := regOf (n2 op)
/-- `y = n3`. -/
def fieldY (op : Word) : Reg := regOf (n3 op)
/-- `n = n4`, the sprite height. -/
def fieldN (op : Word) : Nat := (n4 op).toNat
/-- `kk = op[7:0]`. -/
def fieldKK (op : Word) : Byte := op.extractLsb' 0 8
/-- `nnn = op[11:0]`. -/
def fieldNNN (op : Word) : Addr12 := op.extractLsb' 0 12

/-! ### The opcode map (R61) -/

/-- A row of the map: a word `op` selects it when `op & mask == pattern`, and then stands for `build op`. -/
structure Row where
  pattern : Word
  mask    : Word
  build   : Word → Instr

/-- Rows 1 to 9. -/
def rows1to9 : List Row :=
  [ ⟨0x00E0, 0xFFFF, fun _ => .cls⟩,
    ⟨0x00EE, 0xFFFF, fun _ => .ret⟩,
    ⟨0x1000, 0xF000, fun op => .jp (fieldNNN op)⟩,
    ⟨0x2000, 0xF000, fun op => .call (fieldNNN op)⟩,
    ⟨0x3000, 0xF000, fun op => .seImm (fieldX op) (fieldKK op)⟩,
    ⟨0x4000, 0xF000, fun op => .sneImm (fieldX op) (fieldKK op)⟩,
    ⟨0x5000, 0xF000, fun op => .seReg (fieldX op) (fieldY op) (n4 op)⟩,
    ⟨0x6000, 0xF000, fun op => .ldImm (fieldX op) (fieldKK op)⟩,
    ⟨0x7000, 0xF000, fun op => .addImm (fieldX op) (fieldKK op)⟩ ]

/-- Rows 10 to 18, the 8xyN group. -/
def rows10to18 : List Row :=
  [ ⟨0x8000, 0xF00F, fun op => .ldReg (fieldX op) (fieldY op)⟩,
    ⟨0x8001, 0xF00F, fun op => .orReg (fieldX op) (fieldY op)⟩,
    ⟨0x8002, 0xF00F, fun op => .andReg (fieldX op) (fieldY op)⟩,
    ⟨0x8003, 0xF00F, fun op => .xorReg (fieldX op) (fieldY op)⟩,
    ⟨0x8004, 0xF00F, fun op => .addReg (fieldX op) (fieldY op)⟩,
    ⟨0x8005, 0xF00F, fun op => .subReg (fieldX op) (fieldY op)⟩,
    ⟨0x8006, 0xF00F, fun op => .shr (fieldX op) (fieldY op)⟩,
    ⟨0x8007, 0xF00F, fun op => .subn (fieldX op) (fieldY op)⟩,
    ⟨0x800E, 0xF00F, fun op => .shl (fieldX op) (fieldY op)⟩ ]

/-- Rows 19 to 25. -/
def rows19to25 : List Row :=
  [ ⟨0x9000, 0xF000, fun op => .sneReg (fieldX op) (fieldY op) (n4 op)⟩,
    ⟨0xA000, 0xF000, fun op => .ldI (fieldNNN op)⟩,
    ⟨0xB000, 0xF000, fun op => .jpV0 (fieldNNN op)⟩,
    ⟨0xC000, 0xF000, fun op => .rnd (fieldX op) (fieldKK op)⟩,
    ⟨0xD000, 0xF000, fun op => .drw (fieldX op) (fieldY op) (fieldN op)⟩,
    ⟨0xE09E, 0xF0FF, fun op => .skp (fieldX op)⟩,
    ⟨0xE0A1, 0xF0FF, fun op => .sknp (fieldX op)⟩ ]

/-- Rows 26 to 34, the Fxkk group. -/
def rows26to34 : List Row :=
  [ ⟨0xF007, 0xF0FF, fun op => .ldVxDt (fieldX op)⟩,
    ⟨0xF00A, 0xF0FF, fun op => .ldVxK (fieldX op)⟩,
    ⟨0xF015, 0xF0FF, fun op => .ldDtVx (fieldX op)⟩,
    ⟨0xF018, 0xF0FF, fun op => .ldStVx (fieldX op)⟩,
    ⟨0xF01E, 0xF0FF, fun op => .addI (fieldX op)⟩,
    ⟨0xF029, 0xF0FF, fun op => .ldF (fieldX op)⟩,
    ⟨0xF033, 0xF0FF, fun op => .ldB (fieldX op)⟩,
    ⟨0xF055, 0xF0FF, fun op => .ldMemVx (fieldX op)⟩,
    ⟨0xF065, 0xF0FF, fun op => .ldVxMem (fieldX op)⟩ ]

/-- The 34 rows of R61, in its order. -/
def opcodeMap : List Row := rows1to9 ++ rows10to18 ++ rows19to25 ++ rows26to34

/-- Why the decoder gives no instruction. -/
inductive DecodeReject where
  /-- The word is UNDEFINED (R62): a slot runs it as a no-op (40_execute_cycle R74). -/
  | undefinedWord (op : Word)
  /-- Fewer than two bytes were given (R57). -/
  | truncated
  deriving DecidableEq, Repr

/-- The first row that a word selects. -/
def selectRow (op : Word) : List Row → Option Row
  | [] => none
  | r :: rs => if op &&& r.mask = r.pattern then some r else selectRow op rs

/-- The instruction a word stands for, or UNDEFINED (R60, R61). -/
def decode (op : Word) : Except DecodeReject Instr :=
  match selectRow op opcodeMap with
  | some r => .ok (r.build op)
  | none => .error (.undefinedWord op)

/-- `(hi << 8) | lo`: the word at two consecutive bytes (20_memory R47). -/
def wordOfBytes (hi lo : Byte) : Word := hi ++ lo

/-- The bytes of a word in the order of their addresses, the high byte first (20_memory R47). -/
def bytesOfWord (op : Word) : List Byte := [op.extractLsb' 8 8, op.extractLsb' 0 8]

/-- The instruction at the head of a byte sequence, and the bytes after it: every instruction has two bytes (R57). -/
def decodeBytes : List Byte → Except DecodeReject (Instr × List Byte)
  | hi :: lo :: rest =>
    match decode (wordOfBytes hi lo) with
    | .ok i => .ok (i, rest)
    | .error e => .error e
  | _ => .error .truncated

/-! ### The case analysis of R60 -/

/-- The instruction R60's `decode` gives for a word, `none` for UNDEFINED. -/
def dispatchR60 (op : Word) : Option Instr :=
  match (n1 op).toNat with
  | 0x0 => if op = 0x00E0 then some .cls else if op = 0x00EE then some .ret else none
  | 0x1 => some (.jp (fieldNNN op))
  | 0x2 => some (.call (fieldNNN op))
  | 0x3 => some (.seImm (fieldX op) (fieldKK op))
  | 0x4 => some (.sneImm (fieldX op) (fieldKK op))
  | 0x5 => some (.seReg (fieldX op) (fieldY op) (n4 op))
  | 0x6 => some (.ldImm (fieldX op) (fieldKK op))
  | 0x7 => some (.addImm (fieldX op) (fieldKK op))
  | 0x8 =>
    match (n4 op).toNat with
    | 0x0 => some (.ldReg (fieldX op) (fieldY op))
    | 0x1 => some (.orReg (fieldX op) (fieldY op))
    | 0x2 => some (.andReg (fieldX op) (fieldY op))
    | 0x3 => some (.xorReg (fieldX op) (fieldY op))
    | 0x4 => some (.addReg (fieldX op) (fieldY op))
    | 0x5 => some (.subReg (fieldX op) (fieldY op))
    | 0x6 => some (.shr (fieldX op) (fieldY op))
    | 0x7 => some (.subn (fieldX op) (fieldY op))
    | 0xE => some (.shl (fieldX op) (fieldY op))
    | _ => none
  | 0x9 => some (.sneReg (fieldX op) (fieldY op) (n4 op))
  | 0xA => some (.ldI (fieldNNN op))
  | 0xB => some (.jpV0 (fieldNNN op))
  | 0xC => some (.rnd (fieldX op) (fieldKK op))
  | 0xD => some (.drw (fieldX op) (fieldY op) (fieldN op))
  | 0xE =>
    if fieldKK op = 0x9E then some (.skp (fieldX op))
    else if fieldKK op = 0xA1 then some (.sknp (fieldX op))
    else none
  | 0xF =>
    if fieldKK op = 0x07 then some (.ldVxDt (fieldX op))
    else if fieldKK op = 0x0A then some (.ldVxK (fieldX op))
    else if fieldKK op = 0x15 then some (.ldDtVx (fieldX op))
    else if fieldKK op = 0x18 then some (.ldStVx (fieldX op))
    else if fieldKK op = 0x1E then some (.addI (fieldX op))
    else if fieldKK op = 0x29 then some (.ldF (fieldX op))
    else if fieldKK op = 0x33 then some (.ldB (fieldX op))
    else if fieldKK op = 0x55 then some (.ldMemVx (fieldX op))
    else if fieldKK op = 0x65 then some (.ldVxMem (fieldX op))
    else none
  | _ => none

/-! ### The encoder (the formats of R58) -/

/-- The 4-bit field that names a register. -/
def nibbleOf (r : Reg) : Nibble := BitVec.ofFin r

/-- Format A: a nibble and a 12-bit operand. -/
def formatA (top : Nibble) (nnn : Addr12) : Word := top ++ nnn
/-- Formats B and X: a nibble, a register and a byte (an operand, or the sub-operation). -/
def formatB (top : Nibble) (x : Reg) (kk : Byte) : Word := top ++ nibbleOf x ++ kk
/-- Formats R and D: a nibble, two registers and a low nibble (the sub-operation, or the count). -/
def formatR (top : Nibble) (x y : Reg) (low : Nibble) : Word := top ++ nibbleOf x ++ nibbleOf y ++ low

/-- The word of an instruction, from the formats of R58 and the patterns of R61. -/
def encode : Instr → Word
  | .cls => 0x00E0
  | .ret => 0x00EE
  | .jp nnn => formatA 0x1 nnn
  | .call nnn => formatA 0x2 nnn
  | .seImm x kk => formatB 0x3 x kk
  | .sneImm x kk => formatB 0x4 x kk
  | .seReg x y ignored => formatR 0x5 x y ignored
  | .ldImm x kk => formatB 0x6 x kk
  | .addImm x kk => formatB 0x7 x kk
  | .ldReg x y => formatR 0x8 x y 0x0
  | .orReg x y => formatR 0x8 x y 0x1
  | .andReg x y => formatR 0x8 x y 0x2
  | .xorReg x y => formatR 0x8 x y 0x3
  | .addReg x y => formatR 0x8 x y 0x4
  | .subReg x y => formatR 0x8 x y 0x5
  | .shr x y => formatR 0x8 x y 0x6
  | .subn x y => formatR 0x8 x y 0x7
  | .shl x y => formatR 0x8 x y 0xE
  | .sneReg x y ignored => formatR 0x9 x y ignored
  | .ldI nnn => formatA 0xA nnn
  | .jpV0 nnn => formatA 0xB nnn
  | .rnd x kk => formatB 0xC x kk
  | .drw x y n => formatR 0xD x y (BitVec.ofNat 4 n)
  | .skp x => formatB 0xE x 0x9E
  | .sknp x => formatB 0xE x 0xA1
  | .ldVxDt x => formatB 0xF x 0x07
  | .ldVxK x => formatB 0xF x 0x0A
  | .ldDtVx x => formatB 0xF x 0x15
  | .ldStVx x => formatB 0xF x 0x18
  | .addI x => formatB 0xF x 0x1E
  | .ldF x => formatB 0xF x 0x29
  | .ldB x => formatB 0xF x 0x33
  | .ldMemVx x => formatB 0xF x 0x55
  | .ldVxMem x => formatB 0xF x 0x65

/-- The bytes of an instruction in the order of their addresses. -/
def encodeBytes (i : Instr) : List Byte := bytesOfWord (encode i)

/-! ### The host's numbering of a table word -/

/-- The word whose bits are `w`, numbered as spec/opcode_table.json numbers them, every bit from `nbits` on zero.
Every row of the table has one 16-bit word, so bit 0 is the word's least significant bit. -/
def tableWord (nbits w : Nat) : Word := BitVec.ofNat 16 (w % 2 ^ nbits)

/-- The instruction the decoder reads from the bytes of `tableWord nbits w`. -/
def decodeTableWord (nbits w : Nat) : Option Instr :=
  match decodeBytes (bytesOfWord (tableWord nbits w)) with
  | .ok (i, _) => some i
  | .error _ => none

end Sys2Proof
end

