-- ==== Sys2Proof/Config.lean ====
section
/-! DEFINITION. The implementation parameters of spec 00_scope R6, their defaults, and the free values. -/

namespace Sys2Proof

/-- Which register 8xy6 and 8xyE shift (R6, decision D15). -/
inductive ShiftQuirk where
  | inPlace
  | fromVy
  deriving DecidableEq, Repr

/-- Which register Bnnn adds (R6, decision D15). -/
inductive JumpQuirk where
  | v0
  | vx
  deriving DecidableEq, Repr

/-- The distance between the addresses Fx29 gives for neighbouring digits: 1 or 5 (R6, decision D16). -/
inductive GlyphStride where
  | one
  | five
  deriving DecidableEq, Repr

/-- The capacity of the call stack: a positive natural or UNBOUNDED (R6, decision D4). -/
inductive StackDepth where
  | bounded (entries : Nat) (positive : 0 < entries)
  | unbounded
  deriving DecidableEq, Repr

/-- The parameters of R6 that are not fixed. They are configuration, not machine state: no instruction
reads or writes them as data, reset keeps them, and the host may change them between ticks (10_state R34). -/
structure Config where
  tickRate    : Nat
  stackDepth  : StackDepth
  shiftQuirk  : ShiftQuirk
  jumpQuirk   : JumpQuirk
  glyphStride : GlyphStride
  font        : Vector Byte 80
  deriving DecidableEq, Repr

/-- PRESUMED (log 7): the conventional font of 20_memory R44, which the spec itself marks as general
knowledge. Glyphs 0 to F, five rows each. -/
def Config.defaultFont : Vector Byte 80 :=
  #v[0xF0, 0x90, 0x90, 0x90, 0xF0,  0x20, 0x60, 0x20, 0x20, 0x70,
     0xF0, 0x10, 0xF0, 0x80, 0xF0,  0xF0, 0x10, 0xF0, 0x10, 0xF0,
     0x90, 0x90, 0xF0, 0x10, 0x10,  0xF0, 0x80, 0xF0, 0x10, 0xF0,
     0xF0, 0x80, 0xF0, 0x90, 0xF0,  0xF0, 0x10, 0x20, 0x40, 0x40,
     0xF0, 0x90, 0xF0, 0x90, 0xF0,  0xF0, 0x90, 0xF0, 0x10, 0xF0,
     0xF0, 0x90, 0xF0, 0x90, 0x90,  0xE0, 0x90, 0xE0, 0x90, 0xE0,
     0xF0, 0x80, 0x80, 0x80, 0xF0,  0xE0, 0x90, 0x90, 0x90, 0xE0,
     0xF0, 0x80, 0xF0, 0x80, 0xF0,  0xF0, 0x80, 0xF0, 0x80, 0x80]

/-- The defaults of R6: the parameters of "the R3Kr core" (R7; log 6). -/
def Config.standard : Config where
  tickRate    := 20
  stackDepth  := .bounded 16 (by decide)
  shiftQuirk  := .inPlace
  jumpQuirk   := .v0
  glyphStride := .one
  font        := Config.defaultFont

/-- FREE VALUE (log 4): the n-th byte of the random source, of which the spec promises nothing
(42_alu R95, 60_exceptions R125, 93_implementation_defined U14). It has no body. -/
opaque Config.freeRnd : Nat → Byte

end Sys2Proof
end

