-- ==== Sys2Proof/Machine/State.lean ====
section
/-! DEFINITION. The state of the machine (spec 10_state), its inputs and outputs as plain data, and the state
right after construction. -/

namespace Sys2Proof.Machine

open Sys2Proof

/-- The control state (10_state R32). -/
inductive RunState where
  | stopped
  | running
  | paused
  deriving DecidableEq, Repr

/-- The causes of 60_exceptions R116. -/
inductive FaultCause where
  /-- NONE, code 0. -/
  | noFault
  /-- STACK_OVERFLOW, code 1. -/
  | stackOverflow
  deriving DecidableEq, Repr

/-- The fault register (10_state R33): the cause, the address of the instruction that faulted, its word. -/
structure FaultRegister where
  cause : FaultCause
  pc    : Word
  op    : Word
  deriving DecidableEq, Repr

/-- What the host can ask for between ticks (10_state R35, 60_exceptions R126). -/
inductive Command where
  | start
  | stop
  | togglePause
  | loadRom (bytes : List Byte)
  | configure (c : Config)
  deriving DecidableEq, Repr

/-- DESIGN CHOICE (log 2): one move of the host, as data. -/
inductive HostMove where
  /-- The host does nothing and lets the core move once. -/
  | pass
  /-- The host sets the 16 key-down flags; it may do so between any two slots (10_state R30). -/
  | keypad (keys : BitVec 16)
  /-- The host issues a command; it is taken at a tick boundary (60_exceptions R126). -/
  | command (c : Command)
  deriving DecidableEq, Repr

/-- The reply to LOAD_ROM (70_reset_and_hazards R138). -/
inductive LoadStatus where
  | ok
  | turnedAway
  deriving DecidableEq, Repr

/-- An event on one of the block's outputs (10_state R35, 60_exceptions R128). -/
inductive Output where
  | trace (op : Word)
  | regChange (r : Reg) (v : Byte)
  | loadStatus (reply : LoadStatus)
  deriving DecidableEq, Repr

/-- The framebuffer, 64 × 32 one-bit pixels (10_state R28): 32 rows from the top, pixel x of a row in its bit x.
Pixel (x, y) is thus bit `x + 64 * y` of the whole, as on the FB output (R35). -/
abbrev Framebuffer := Vector (BitVec 64) 32

/-- Memory: (address, byte) pairs in one canonical form (`Memory.wf` in Ops.lean; log 8). -/
abbrev Memory := List Host.Cell

/-- The state as spec 10_state gives it, then the position in a tick, then the environment and the outputs. -/
structure State where
  /-- V0..VF (R13). -/
  v         : Vector Byte 16
  /-- I (R21). -/
  index     : Word
  /-- R17. -/
  pc        : Word
  /-- The call stack (R26), the most recently pushed entry first (log 17). -/
  stack     : List Word
  /-- The delay timer (R23). -/
  dt        : Byte
  /-- The sound timer (R23). -/
  st        : Byte
  fb        : Framebuffer
  mem       : Memory
  /-- Bit k is `key[k]` (R30). -/
  keypad    : BitVec 16
  runState  : RunState
  fault     : FaultRegister
  /-- The parameters (R34): configuration, which the host may change between ticks. -/
  config    : Config
  /-- The slots of the running tick still to come, 0 at a tick boundary (R36; log 1). -/
  slotsLeft : Nat
  /-- The host's coming moves (log 2). -/
  script    : List HostMove
  /-- Bytes that already wait on the RND input (R35; log 4). -/
  rndIn     : List Byte
  /-- How many bytes `Config.freeRnd` has given (log 4). -/
  rndDrawn  : Nat
  /-- The events of the last step (R35; log 10). -/
  out       : List Output
  deriving DecidableEq, Repr

/-- The reasons a step could stop the machine. There are none: the spec's one fault, STACK_OVERFLOW, is a
state of the machine (60_exceptions R114) and nothing else stops a step (R113; log 16). Safe. -/
inductive Fault
  deriving DecidableEq, Repr

/-- The reasons a step could be refused. -/
inductive Refusal where
  /-- Raised by `exec` for an instruction that has no meaning yet. Safe. No arm of `exec` raises it. -/
  | notModelled (mnemonic : String)
  deriving DecidableEq, Repr

/-- The newly constructed block (70_reset_and_hazards R132) at the values of 10_state R37. The spec gives no
value for the keypad (DESIGN CHOICE, log 5), and the configuration is the default one (DEDUCED, log 6). The last
four fields are the model's own (DESIGN CHOICE, logs 2, 4, 10). -/
def State.reset : State where
  v         := Vector.replicate 16 0x00
  index     := 0x0000
  pc        := 0x0200
  stack     := []
  dt        := 0x00
  st        := 0x00
  fb        := Vector.replicate 32 0
  mem       := []
  keypad    := 0
  runState  := .stopped
  fault     := ⟨.noFault, 0, 0⟩
  config    := Config.standard
  slotsLeft := 0
  script    := []
  rndIn     := []
  rndDrawn  := 0
  out       := []

end Sys2Proof.Machine
end

