-- ==== Sys2Proof/Machine/Ops.lean ====
section
/-! DEFINITION. The named operations over memory, registers, the stack, the framebuffer and the other state:
the primitives of spec 00_scope R9. Taking the fault and the reset, the only way out of it, stand here too. -/

namespace Sys2Proof.Machine

open Sys2Proof

/-! ### Memory (20_memory) -/

/-- What a byte that nothing has written since construction reads as: the reset contents of R42 under the
default FONT (log 8). It is read for addresses 0x000 to 0xFFF only. -/
def Memory.resetByte (a : Nat) : Byte :=
  if a < 0x050 then 0x00
  else if h : a - 0x050 < 80 then Config.defaultFont[a - 0x050]'h
  else 0x00

/-- The canonical form from address `lo` on: addresses rise strictly and stay in 0x000..0xFFF, and no entry
equals what an unlisted address reads as. -/
def Memory.wfFrom (lo : Nat) : Memory → Bool
  | [] => true
  | (k, w) :: rest => decide (lo ≤ k) && decide (k ≤ 0xFFF) && decide (w ≠ Memory.resetByte k) && Memory.wfFrom (k + 1) rest

/-- The canonical form of a memory. -/
def Memory.wf (m : Memory) : Bool := Memory.wfFrom 0 m

/-- The byte at an address of 0x000..0xFFF. -/
def Memory.lookup : Memory → Nat → Byte
  | [], a => Memory.resetByte a
  | (k, w) :: rest, a => if k = a then w else Memory.lookup rest a

/-- Put a byte at an address, keeping the canonical form. -/
def Memory.insert : Memory → Nat → Byte → Memory
  | [], a, x => if x = Memory.resetByte a then [] else [(a, x)]
  | (k, w) :: rest, a, x =>
    if a < k then (if x = Memory.resetByte a then (k, w) :: rest else (a, x) :: (k, w) :: rest)
    else if a = k then (if x = Memory.resetByte a then rest else (a, x) :: rest)
    else (k, w) :: Memory.insert rest a x

/-- `MemRead(a, 1)` (R40): an address above 0xFFF reads as 0x00. -/
def Memory.read (m : Memory) (a : Nat) : Byte :=
  if a ≤ 0xFFF then m.lookup a else 0x00

/-- `MemWrite(a, 1, x)` (R41): a write above 0xFFF is discarded. -/
def Memory.write (m : Memory) (a : Nat) (x : Byte) : Memory :=
  if a ≤ 0xFFF then m.insert a x else m

/-- Bytes written at consecutive rising addresses (R48). -/
def Memory.writeBytes : Memory → Nat → List Byte → Memory
  | m, _, [] => m
  | m, a, x :: rest => Memory.writeBytes (m.write a x) (a + 1) rest

/-- The memory of `reset()`: all zero except the font table (70_reset_and_hazards R131, 20_memory R43). -/
def Memory.ofReset (font : Vector Byte 80) : Memory := Memory.writeBytes [] 0x050 font.toList

/-! ### The fields of the state -/

/-- `V[r]` (10_state R13). -/
def State.reg (s : State) (r : Reg) : Byte := s.v[r.val]'r.isLt

/-- `V[r] <- x` (10_state R13). -/
def State.setReg (s : State) (r : Reg) (x : Byte) : State := { s with v := s.v.set r.val x r.isLt }

/-- `I <- x` (10_state R21). -/
def State.setIndex (s : State) (x : Word) : State := { s with index := x }

/-- `pc <- target` (10_state R17). -/
def State.setPc (s : State) (target : Word) : State := { s with pc := target }

def State.setStack (s : State) (x : List Word) : State := { s with stack := x }

/-- `DT <- x` (10_state R23). -/
def State.setDt (s : State) (x : Byte) : State := { s with dt := x }

/-- `ST <- x` (10_state R23). -/
def State.setSt (s : State) (x : Byte) : State := { s with st := x }

def State.setFb (s : State) (x : Framebuffer) : State := { s with fb := x }

def State.setMem (s : State) (x : Memory) : State := { s with mem := x }

def State.setKeypad (s : State) (x : BitVec 16) : State := { s with keypad := x }

def State.setRunState (s : State) (x : RunState) : State := { s with runState := x }

def State.setFault (s : State) (x : FaultRegister) : State := { s with fault := x }

def State.setConfig (s : State) (x : Config) : State := { s with config := x }

def State.setSlotsLeft (s : State) (x : Nat) : State := { s with slotsLeft := x }

def State.setScript (s : State) (x : List HostMove) : State := { s with script := x }

def State.setRndIn (s : State) (x : List Byte) : State := { s with rndIn := x }

def State.setRndDrawn (s : State) (x : Nat) : State := { s with rndDrawn := x }

def State.setOut (s : State) (x : List Output) : State := { s with out := x }

/-- All 16 registers, V0 first. -/
def allRegs : List Reg := [0, 1, 2, 3, 4, 5, 6, 7, 8, 9, 10, 11, 12, 13, 14, 15]

/-- `MemRead(a, 1)` on the machine's memory. -/
def State.memRead (s : State) (a : Nat) : Byte := s.mem.read a

/-- `MemWrite(a, 1, x)` on the machine's memory. -/
def State.memWrite (s : State) (a : Nat) (x : Byte) : State := s.setMem (s.mem.write a x)

/-- `pc <- (pc + 2) mod 2^16`: the advance of 40_execute_cycle R72, and a taken skip. -/
def State.advance (s : State) : State := s.setPc (s.pc + 2)

/-- An extra `pc + 2` if the condition holds (41_flow R80 to R83). -/
def State.skipIf (s : State) (condition : Bool) : State := if condition then s.advance else s

/-! ### The call stack (10_state R26) -/

/-- `push(x)`. -/
def State.push (s : State) (x : Word) : State := s.setStack (x :: s.stack)

/-- `depth <= STACK_DEPTH` (10_state R38). -/
def depthAllowed (limit : StackDepth) (depth : Nat) : Bool :=
  match limit with
  | .bounded entries _ => decide (depth ≤ entries)
  | .unbounded => true

/-- `STACK_DEPTH != UNBOUNDED and depth == STACK_DEPTH` (41_flow R78). -/
def State.stackFull (s : State) : Bool :=
  match s.config.stackDepth with
  | .bounded entries _ => decide (s.stack.length = entries)
  | .unbounded => false

/-! ### The framebuffer (10_state R28) -/

/-- All 2048 pixels off. -/
def Framebuffer.blank : Framebuffer := Vector.replicate 32 0

/-- `fb[x, y]`. No pixel outside x ≤ 63, y ≤ 31 exists, and none is on. -/
def Framebuffer.pixel (fb : Framebuffer) (x y : Nat) : Bool :=
  if h : y < 32 then (fb[y]'h).getLsbD x else false

/-- A row of the display with its pixel x on or off. -/
def rowWithPixel (row : BitVec 64) (x : Nat) (b : Bool) : BitVec 64 :=
  if b then row ||| BitVec.twoPow 64 x else row &&& ~~~ BitVec.twoPow 64 x

/-- `fb[x, y] <- b`, for x ≤ 63 and y ≤ 31. -/
def Framebuffer.setPixel (fb : Framebuffer) (x y : Nat) (b : Bool) : Framebuffer :=
  if h : y < 32 then fb.set y (rowWithPixel (fb[y]'h) x b) h else fb

/-! ### The random byte (42_alu R95) -/

/-- `rnd()`: the byte that waits on the RND input or, when none waits, a free value (log 4). Each byte is
given once. -/
def State.rndByte (s : State) : Byte :=
  match s.rndIn with
  | r :: _ => r
  | [] => Config.freeRnd s.rndDrawn

/-- The random source after it gave `rndByte`. -/
def State.rndTaken (s : State) : State :=
  match s.rndIn with
  | _ :: rest => s.setRndIn rest
  | [] => s.setRndDrawn (s.rndDrawn + 1)

/-! ### Taking the fault, and reset -/

/-- `raise Fault(c)` by an instruction whose word `op` was fetched at `a` (60_exceptions R114): the advance is
undone, the fault register records the cause, and nothing else changes. There is no trap return (R118): only a
reset leaves the fault. -/
def State.raiseFault (s : State) (c : FaultCause) (a op : Word) : State := (s.setPc a).setFault ⟨c, a, op⟩

/-- `reset()` (70_reset_and_hazards R131). The keypad and the configuration are not touched, nor is the
environment's data (logs 2, 4). A reset happens at a tick boundary, so no slot is left. -/
def State.resetAll (s : State) : State :=
  { s with
    mem       := Memory.ofReset s.config.font
    v         := Vector.replicate 16 0x00
    index     := 0x0000
    pc        := 0x0200
    stack     := []
    dt        := 0x00
    st        := 0x00
    fb        := Framebuffer.blank
    fault     := ⟨.noFault, 0, 0⟩
    runState  := .stopped
    slotsLeft := 0 }

/-! ### The outputs (10_state R35, 60_exceptions R128) -/

/-- An event on an output, after those the step has already emitted. -/
def State.emit (s : State) (e : Output) : State := s.setOut (s.out ++ [e])

/-- The REG_CHANGE events of an instruction: one for each of V0..VF that it left with another value (R128).
DESIGN CHOICE (log 10): lowest register first. -/
def regChanges (before after : State) : List Output :=
  allRegs.filterMap fun r => if after.reg r = before.reg r then none else some (.regChange r (after.reg r))

/-- The code of a cause (60_exceptions R116). -/
def FaultCause.code : FaultCause → Nat
  | .noFault => 0
  | .stackOverflow => 1

/-- The STATE and FB outputs. They can be read between ticks, and a read changes nothing (10_state R29, R35). -/
structure Observation where
  v        : Vector Byte 16
  index    : Word
  pc       : Word
  /-- Oldest entry first, as the spec lists a stack. -/
  stack    : List Word
  dt       : Byte
  st       : Byte
  runState : RunState
  fault    : FaultRegister
  fb       : Framebuffer
  deriving DecidableEq, Repr

/-- What the host reads on STATE and FB: nothing inside a tick (DEDUCED, log 18). -/
def State.observe (s : State) : Option Observation :=
  if s.slotsLeft = 0 then
    some { v := s.v, index := s.index, pc := s.pc, stack := s.stack.reverse, dt := s.dt, st := s.st,
           runState := s.runState, fault := s.fault, fb := s.fb }
  else none

end Sys2Proof.Machine
end

