-- ==== Sys2Proof/Machine/Flags.lean ====
section
/-! DEFINITION. The flag computations of spec 10_state R16 and the order of result and flag writes. -/

namespace Sys2Proof.Machine

open Sys2Proof

/-- VF, the flag register (10_state R15). -/
def regVF : Reg := 15

/-- A flag's value in VF: 1 or 0. -/
def flagByte (b : Bool) : Byte := if b then 0x01 else 0x00

/-- Carry of 8xy4: `s > 0xFF` for the exact sum `s` (42_alu R90). -/
def carryOut (a b : Byte) : Bool := decide (a.toNat + b.toNat > 0xFF)

/-- NOT borrow of `a - b`: `a >= b` (42_alu R91, R93). -/
def notBorrow (a b : Byte) : Bool := decide (a.toNat ≥ b.toNat)

/-- The bit that 8xy6 drops (42_alu R92). -/
def droppedLow (a : Byte) : Bool := a.getLsbD 0

/-- The bit that 8xyE drops (42_alu R94). -/
def droppedHigh (a : Byte) : Bool := a.getLsbD 7

/-- The result goes to V[x] first and the flag to VF last, so VF holds the flag when x = F (10_state R16,
decision D9). -/
def State.setResultThenFlag (s : State) (x : Reg) (result : Byte) (flag : Bool) : State :=
  (s.setReg x result).setReg regVF (flagByte flag)

end Sys2Proof.Machine
end

