-- ==== Sys2Proof/Machine/Operands.lean ====
section
/-! DEFINITION. The operands the instructions compute: sources the quirks select, addresses, sprite coordinates,
decimal digits, keys. -/

namespace Sys2Proof.Machine

open Sys2Proof

/-- The source of 8xy6 and 8xyE (42_alu R92, R94): V[x], or V[y] under SHIFT_QUIRK = FROM_VY. -/
def State.shiftSource (s : State) (x y : Reg) : Byte :=
  match s.config.shiftQuirk with
  | .inPlace => s.reg x
  | .fromVy => s.reg y

/-- `V[op[11:8]]`: the register that the top nibble of `nnn` names (30_encoding R59). -/
def topReg (nnn : Addr12) : Reg := regOf (nnn.extractLsb' 8 4)

/-- The register Bnnn adds (41_flow R79): V0, or V[n2] under JUMP_QUIRK = VX. -/
def State.jumpOffset (s : State) (nnn : Addr12) : Byte :=
  match s.config.jumpQuirk with
  | .v0 => s.reg 0
  | .vx => s.reg (topReg nnn)

/-- A 12-bit operand as a 16-bit value (30_encoding R59). -/
def addrWord (nnn : Addr12) : Word := nnn.setWidth 16

/-- A register's value as a 16-bit value. -/
def byteWord (b : Byte) : Word := b.setWidth 16

/-- The effective address `I + k`, a natural number that never wraps (43_index_memory, 10_state R21). -/
def State.addrAt (s : State) (k : Nat) : Nat := s.index.toNat + k

/-- GLYPH_STRIDE as a number. -/
def strideWord : GlyphStride → Word
  | .one => 1
  | .five => 5

/-- `0x050 + GLYPH_STRIDE × (V[x] & 0xF)` (43_index_memory R99). -/
def State.glyphAddress (s : State) (x : Reg) : Word :=
  0x050 + strideWord s.config.glyphStride * byteWord (s.reg x &&& 0x0F)

/-- Hundreds, tens and ones of a byte (43_index_memory R100). -/
def hundreds (b : Byte) : Byte := BitVec.ofNat 8 (b.toNat / 100)
def tens (b : Byte) : Byte := BitVec.ofNat 8 (b.toNat / 10 % 10)
def ones (b : Byte) : Byte := BitVec.ofNat 8 (b.toNat % 10)

/-- The registers V0 to Vx, ascending. -/
def regsUpTo (x : Reg) : List Reg := allRegs.filter fun r => decide (r ≤ x)

/-- `x0 = V[x] & 63` (44_display R104). -/
def State.spriteX (s : State) (x : Reg) : Nat := (s.reg x &&& 63).toNat

/-- `y0 = V[y] & 31` (44_display R104). -/
def State.spriteY (s : State) (y : Reg) : Nat := (s.reg y &&& 31).toNat

/-- `k <= 0xF and K[k] == 1`: a number above 0xF names no key and reads as up (45_timers_keypad R107, decision
D10). The sample `K` is the keypad at this slot (40_execute_cycle R75). -/
def keyDown (keys : BitVec 16) (k : Byte) : Bool := decide (k.toNat ≤ 0xF) && keys.getLsbD k.toNat

/-- The lowest of the `count` keys from `k` on that is down. -/
def lowestKeyFrom (keys : BitVec 16) : Nat → Nat → Option Nat
  | _, 0 => none
  | k, count + 1 => if keys.getLsbD k then some k else lowestKeyFrom keys (k + 1) count

/-- `min { k | K[k] == 1 }`, or none when no key is down (45_timers_keypad R110). -/
def lowestKey (keys : BitVec 16) : Option Nat := lowestKeyFrom keys 0 16

end Sys2Proof.Machine
end

