-- ==== Sys2Proof/Machine/Display.lean ====
section
/-! DEFINITION. The display (spec 44_display): clear, and the XOR sprite blit as the two loops of R104. -/

namespace Sys2Proof.Machine

open Sys2Proof

/-- A framebuffer being drawn on, and whether a pixel has been turned off so far. -/
abbrev Canvas := Framebuffer × Bool

/-- One sprite bit of 1 on the pixel (x, y): an on pixel goes off and collides, an off pixel goes on (R104, R105). -/
def Canvas.flip (c : Canvas) (x y : Nat) : Canvas :=
  if c.1.pixel x y then (c.1.setPixel x y false, true) else (c.1.setPixel x y true, c.2)

/-- The loop `for b in ..` of R104 over the sprite byte `row`, for `count` bits from bit number `b` on (0 is the
most significant): a column right of 63 stops the row (R106). -/
def drawBits (row : Byte) (x0 yy : Nat) : Nat → Nat → Canvas → Canvas
  | _, 0, c => c
  | b, count + 1, c =>
    if x0 + b > 63 then c
    else drawBits row x0 yy (b + 1) count (if row.getLsbD (7 - b) then c.flip (x0 + b) yy else c)

/-- The loop `for i in ..` of R104, for `count` rows from row number `i` on, the sprite at `base`: a row below
31 stops the drawing (R106). -/
def drawRows (m : Memory) (base x0 y0 : Nat) : Nat → Nat → Canvas → Canvas
  | _, 0, c => c
  | i, count + 1, c =>
    if y0 + i > 31 then c
    else drawRows m base x0 y0 (i + 1) count (drawBits (m.read (base + i)) x0 (y0 + i) 0 8 c)

/-- The display and the collision that DRW Vx, Vy, n leaves. The coordinates come from the registers as they are
before VF is cleared (decision D23). -/
def State.drawn (s : State) (x y : Reg) (n : Nat) : Canvas :=
  drawRows s.mem s.index.toNat (s.spriteX x) (s.spriteY y) 0 n (s.fb, false)

/-- CLS (R103). -/
def execCls (s : State) : Host.Outcome State Fault Refusal :=
  .next (s.setFb Framebuffer.blank)

/-- DRW Vx, Vy, n (R104): VF = 1 if a pixel went from on to off, else 0. -/
def execDrw (x y : Reg) (n : Nat) (s : State) : Host.Outcome State Fault Refusal :=
  .next ((s.setFb (s.drawn x y n).1).setReg regVF (flagByte (s.drawn x y n).2))

end Sys2Proof.Machine
end

