-- ==== Sys2Proof/Machine/Flow.lean ====
section
/-! DEFINITION. Control flow (spec 41_flow). `s.pc` is the already-advanced value (40_execute_cycle R72). -/

namespace Sys2Proof.Machine

open Sys2Proof

/-- RET (R76): an empty stack is no fault, the pc falls back to 0x200. -/
def execRet (s : State) : Host.Outcome State Fault Refusal :=
  match s.stack with
  | top :: rest => .next ((s.setStack rest).setPc top)
  | [] => .next (s.setPc 0x200)

/-- JP nnn (R77). -/
def execJp (nnn : Addr12) (s : State) : Host.Outcome State Fault Refusal :=
  .next (s.setPc (addrWord nnn))

/-- CALL nnn (R78). DEDUCED (log 9): the address of the CALL is the advanced pc less 2, and its word is the one
word that encodes it. -/
def execCall (nnn : Addr12) (s : State) : Host.Outcome State Fault Refusal :=
  if s.stackFull then .next (s.raiseFault .stackOverflow (s.pc - 2) (encode (.call nnn)))
  else .next ((s.push s.pc).setPc (addrWord nnn))

/-- JP V0, nnn (R79). -/
def execJpV0 (nnn : Addr12) (s : State) : Host.Outcome State Fault Refusal :=
  .next (s.setPc (byteWord (s.jumpOffset nnn) + addrWord nnn))

/-- SE Vx, kk (R80). -/
def execSeImm (x : Reg) (kk : Byte) (s : State) : Host.Outcome State Fault Refusal :=
  .next (s.skipIf (s.reg x == kk))

/-- SNE Vx, kk (R81). -/
def execSneImm (x : Reg) (kk : Byte) (s : State) : Host.Outcome State Fault Refusal :=
  .next (s.skipIf (s.reg x != kk))

/-- SE Vx, Vy (R82). -/
def execSeReg (x y : Reg) (s : State) : Host.Outcome State Fault Refusal :=
  .next (s.skipIf (s.reg x == s.reg y))

/-- SNE Vx, Vy (R83). -/
def execSneReg (x y : Reg) (s : State) : Host.Outcome State Fault Refusal :=
  .next (s.skipIf (s.reg x != s.reg y))

end Sys2Proof.Machine
end

