-- ==== Sys2Proof/Machine/IndexMemory.lean ====
section
/-! DEFINITION. The index register and memory transfers (spec 43_index_memory). No transfer changes I
(10_state R22). -/

namespace Sys2Proof.Machine

open Sys2Proof

/-- `for i in rs: MemWrite(I + i, 1, V[i])`. -/
def State.storeRegs : State → List Reg → State
  | s, [] => s
  | s, r :: rs => State.storeRegs (s.memWrite (s.addrAt r.val) (s.reg r)) rs

/-- `for i in rs: V[i] <- MemRead(I + i, 1)`. -/
def State.loadRegs : State → List Reg → State
  | s, [] => s
  | s, r :: rs => State.loadRegs (s.setReg r (s.memRead (s.addrAt r.val))) rs

/-- LD I, nnn (R97). -/
def execLdI (nnn : Addr12) (s : State) : Host.Outcome State Fault Refusal :=
  .next (s.setIndex (addrWord nnn))

/-- ADD I, Vx (R98): no flag. -/
def execAddI (x : Reg) (s : State) : Host.Outcome State Fault Refusal :=
  .next (s.setIndex (s.index + byteWord (s.reg x)))

/-- LD F, Vx (R99). -/
def execLdF (x : Reg) (s : State) : Host.Outcome State Fault Refusal :=
  .next (s.setIndex (s.glyphAddress x))

/-- LD B, Vx (R100): hundreds at I, tens at I + 1, ones at I + 2. -/
def execLdB (x : Reg) (s : State) : Host.Outcome State Fault Refusal :=
  .next (((s.memWrite (s.addrAt 0) (hundreds (s.reg x))).memWrite (s.addrAt 1) (tens (s.reg x))).memWrite
    (s.addrAt 2) (ones (s.reg x)))

/-- LD [I], Vx (R101). -/
def execLdMemVx (x : Reg) (s : State) : Host.Outcome State Fault Refusal :=
  .next (s.storeRegs (regsUpTo x))

/-- LD Vx, [I] (R102). -/
def execLdVxMem (x : Reg) (s : State) : Host.Outcome State Fault Refusal :=
  .next (s.loadRegs (regsUpTo x))

end Sys2Proof.Machine
end

