-- ==== Sys2Proof/Machine/TimersKeypad.lean ====
section
/-! DEFINITION. Keypad tests, the key wait and timer access (spec 45_timers_keypad). The sample of the keypad is
`s.keypad`, read once in the step (40_execute_cycle R75). -/

namespace Sys2Proof.Machine

open Sys2Proof

/-- SKP Vx (R107). -/
def execSkp (x : Reg) (s : State) : Host.Outcome State Fault Refusal :=
  .next (s.skipIf (keyDown s.keypad (s.reg x)))

/-- SKNP Vx (R108). -/
def execSknp (x : Reg) (s : State) : Host.Outcome State Fault Refusal :=
  .next (s.skipIf (!keyDown s.keypad (s.reg x)))

/-- LD Vx, DT (R109). -/
def execLdVxDt (x : Reg) (s : State) : Host.Outcome State Fault Refusal :=
  .next (s.setReg x s.dt)

/-- LD Vx, K (R110): with no key down the pc goes back onto this instruction. -/
def execLdVxK (x : Reg) (s : State) : Host.Outcome State Fault Refusal :=
  match lowestKey s.keypad with
  | none => .next (s.setPc (s.pc - 2))
  | some k => .next (s.setReg x (BitVec.ofNat 8 k))

/-- LD DT, Vx (R111). -/
def execLdDtVx (x : Reg) (s : State) : Host.Outcome State Fault Refusal :=
  .next (s.setDt (s.reg x))

/-- LD ST, Vx (R112). -/
def execLdStVx (x : Reg) (s : State) : Host.Outcome State Fault Refusal :=
  .next (s.setSt (s.reg x))

end Sys2Proof.Machine
end

