-- ==== Sys2Proof/Machine/Cycle.lean ====
section
/-! DEFINITION. What a step is made of: one instruction slot (spec 40_execute_cycle R69), the start of a tick
(60_exceptions R121), the host's commands (70_reset_and_hazards R135 to R138), and who moves next (log 1, 2, 3). -/

namespace Sys2Proof.Machine

open Sys2Proof

/-! ### One instruction slot -/

/-- The word at `pc`, big-endian (40_execute_cycle R70, 20_memory R47). -/
def State.fetchWord (s : State) : Word := wordOfBytes (s.memRead s.pc.toNat) (s.memRead (s.pc.toNat + 1))

/-- The state an instruction's meaning starts from: its word is traced and pc is advanced (40_execute_cycle R69,
R72). -/
def State.fetched (s : State) : State := (s.emit (.trace s.fetchWord)).advance

/-- The end of a slot: the REG_CHANGE events of what the instruction changed (60_exceptions R128). -/
def finishSlot (before : State) : Host.Outcome State Fault Refusal → Host.Outcome State Fault Refusal
  | .next t => .next (t.setOut (t.out ++ regChanges before t))
  | .fault r => .fault r
  | .refused r => .refused r

/-- `execute_one()` (40_execute_cycle R69): nothing while a fault is recorded, a no-op slot for a fetch past the
end of memory (R71) and for an UNDEFINED word (R74), else the instruction. -/
def executeOne (s : State) : Host.Outcome State Fault Refusal :=
  if s.fault.cause = .noFault then
    if s.pc.toNat ≥ 0xFFF then .next s.advance
    else
      match decode s.fetchWord with
      | .ok i => finishSlot s (exec i s.fetched)
      | .error _ => .next s.fetched
  else .next s

/-! ### The tick (60_exceptions R121) -/

/-- A nonzero timer less 1. -/
def timerTick (x : Byte) : Byte := if x = 0 then 0 else x - 1

/-- `TICK`: nothing unless Running and not faulted; else both timers decay once and TICK_RATE slots follow. -/
def State.tick (s : State) : State :=
  if s.runState = .running ∧ s.fault.cause = .noFault then
    ((s.setDt (timerTick s.dt)).setSt (timerTick s.st)).setSlotsLeft s.config.tickRate
  else s

/-- The core's own move: the next slot of the running tick, or, at a tick boundary, a TICK (log 1, 3). -/
def coreMove (s : State) : Host.Outcome State Fault Refusal :=
  match s.slotsLeft with
  | 0 => .next s.tick
  | n + 1 => executeOne (s.setSlotsLeft n)

/-! ### The host's commands (70_reset_and_hazards) -/

/-- `START` (R135). -/
def State.start (s : State) : State :=
  match s.runState with
  | .stopped => s.setRunState .running
  | .running => s
  | .paused => s

/-- `TOGGLE_PAUSE` (R136). -/
def State.togglePause (s : State) : State :=
  match s.runState with
  | .stopped => s
  | .running => s.setRunState .paused
  | .paused => s.setRunState .running

/-- `STOP` (R137). -/
def State.stop (s : State) : State := s.resetAll

/-- The state LOAD_ROM copies into: after a reset when Running or Paused (R138, decision D14). -/
def State.readyForRom (s : State) : State :=
  match s.runState with
  | .stopped => s
  | .running => s.resetAll
  | .paused => s.resetAll

/-- `LOAD_ROM(b)` (R138): more than 3584 bytes are refused whole. -/
def State.loadRom (s : State) (b : List Byte) : State :=
  if b.length > 3584 then s.emit (.loadStatus .turnedAway)
  else (s.readyForRom.setMem (s.readyForRom.mem.writeBytes 0x200 b)).emit (.loadStatus .ok)

/-- The host changes the configuration (10_state R34). DESIGN CHOICE (log 11): a change that would leave the stack
deeper than STACK_DEPTH, against R38, is not made. -/
def State.configure (s : State) (c : Config) : State :=
  if depthAllowed c.stackDepth s.stack.length then s.setConfig c else s

/-- A command, taken at a tick boundary. A new configuration takes effect from the next use of each parameter
(10_state R34; log 14). -/
def State.obey (s : State) : Command → State
  | .start => s.start
  | .stop => s.stop
  | .togglePause => s.togglePause
  | .loadRom b => s.loadRom b
  | .configure c => s.configure c

/-! ### Who moves -/

/-- The next mover: the host, with the state its move leaves, or the core, with the state it moves from. -/
inductive Turn where
  | host (t : State)
  | core (t : State)
  deriving DecidableEq, Repr

/-- The host's script decides (log 2): a keypad change lands between any two slots (10_state R30), a command
waits for the tick boundary (60_exceptions R126; log 19), and with nothing in the script the core moves. -/
def State.turn (s : State) : Turn :=
  match s.script with
  | [] => .core s
  | .pass :: rest => .core (s.setScript rest)
  | .keypad keys :: rest => .host ((s.setScript rest).setKeypad keys)
  | .command c :: rest => if s.slotsLeft = 0 then .host ((s.setScript rest).obey c) else .core s

/-- One step: the outputs of the last step are gone, then the mover moves. -/
def takeTurn (s : State) : Host.Outcome State Fault Refusal :=
  match (s.setOut []).turn with
  | .host t => .next t
  | .core t => coreMove t

/-- The address the next instruction is fetched from, once `withFetchWord` has made a fetch possible: pc, or the
reset vector where a fetch at pc would pass the end of memory. -/
def State.fetchAddress (s : State) : Word := if s.pc.toNat ≥ 0xFFF then 0x200 else s.pc

/-- The state whose next step is a slot that fetches the word `op` (log 12). -/
def State.placedForFetch (s : State) (op : Word) : State :=
  { s with
    pc        := s.fetchAddress
    mem       := s.mem.writeBytes s.fetchAddress.toNat (bytesOfWord op)
    runState  := .running
    fault     := ⟨.noFault, 0, 0⟩
    slotsLeft := max s.slotsLeft 1
    script    := [] }

end Sys2Proof.Machine
end

