-- ==== Sys2Proof/Machine/Step.lean ====
section
/-! DEFINITION. One step of the machine, and the host's way to place an instruction under the next fetch. -/

namespace Sys2Proof.Machine

open Sys2Proof

/-- One step: a move of the host, the start of a tick, or one instruction slot (log 1). -/
def step (s : State) : Host.Outcome State Fault Refusal := takeTurn s

/-- `s` with the instruction whose bits are `w` stored where the next step fetches, the machine inside a running
tick, not faulted, and the host quiet (log 12). -/
def State.withFetchWord (s : State) (nbits w : Nat) : State := s.placedForFetch (tableWord nbits w)

end Sys2Proof.Machine
end

