-- ==== Sys2Proof/Safety.lean ====
section
/-! DEFINITION. The terms claims are stated in: which parts of the state two states share, the four situations of
spec 70_reset_and_hazards R148, and the invariant of the machine. -/

namespace Sys2Proof.Machine

open Sys2Proof

/-- The parts of the state. -/
inductive Part where
  | regs | index | pc | stack | dt | st | fb | mem | keypad | runState | fault | config
  | slots | script | rnd | out
  deriving DecidableEq, Repr

/-- A part is the same in `t` as in `s`: every register, every byte of memory as it is read, every field. -/
def Keeps (s t : State) : Part → Prop
  | .regs => ∀ r, t.reg r = s.reg r
  | .index => t.index = s.index
  | .pc => t.pc = s.pc
  | .stack => t.stack = s.stack
  | .dt => t.dt = s.dt
  | .st => t.st = s.st
  | .fb => t.fb = s.fb
  | .mem => ∀ a, t.memRead a = s.memRead a
  | .keypad => t.keypad = s.keypad
  | .runState => t.runState = s.runState
  | .fault => t.fault = s.fault
  | .config => t.config = s.config
  | .slots => t.slotsLeft = s.slotsLeft
  | .script => t.script = s.script
  | .rnd => t.rndIn = s.rndIn ∧ t.rndDrawn = s.rndDrawn
  | .out => t.out = s.out

/-- Every part but those listed is the same in `t` as in `s`. -/
def KeepsAllBut (changed : List Part) (s t : State) : Prop := ∀ p, p ∉ changed → Keeps s t p

/-- A fault is recorded: the run has failed (60_exceptions R115). -/
def State.Faulted (s : State) : Prop := s.fault.cause ≠ .noFault

/-- Between ticks, where the host observes and commands (60_exceptions R126). -/
def State.AtBoundary (s : State) : Prop := s.slotsLeft = 0

/-- The word under `pc` is a jump to itself and no fault is recorded: the situation of R148 (a). -/
def State.Spinning (s : State) : Prop :=
  s.fault.cause = .noFault ∧ s.pc.toNat ≤ 0xFFE ∧
    ∃ nnn, decode s.fetchWord = .ok (.jp nnn) ∧ addrWord nnn = s.pc

/-- The word under `pc` is an Fx0A and no fault is recorded: the situation of R148 (c). -/
def State.AtKeyWait (s : State) : Prop :=
  s.fault.cause = .noFault ∧ s.pc.toNat ≤ 0xFFE ∧ ∃ x, decode s.fetchWord = .ok (.ldVxK x)

/-- A safe state: no fault is recorded (R148 (b)). -/
def State.Safe (s : State) : Prop := s.fault.cause = .noFault

/-- The stack holds no more entries than `limit` allows. -/
def StackFits (limit : StackDepth) (s : State) : Prop :=
  ∀ entries positive, limit = .bounded entries positive → s.stack.length ≤ entries

/-- `depth ≤ STACK_DEPTH` (10_state R38). -/
def State.WithinDepth (s : State) : Prop := StackFits s.config.stackDepth s

/-- Every field that `reset()` sets, memory apart, has its reset value (10_state R37). -/
structure State.ResetButMemory (s : State) : Prop where
  regs  : ∀ r, s.reg r = 0x00
  index : s.index = 0x0000
  pc    : s.pc = 0x0200
  stack : s.stack = []
  dt    : s.dt = 0x00
  st    : s.st = 0x00
  fb    : ∀ x y, s.fb.pixel x y = false
  fault : s.fault = ⟨.noFault, 0, 0⟩

/-- The invariant of the machine. -/
structure State.Inv (s : State) : Prop where
  /-- Memory is in its canonical form, and holds addresses 0x000 to 0xFFF only (10_state R38). -/
  mem     : s.mem.wf = true
  /-- `depth ≤ STACK_DEPTH` (10_state R38). -/
  depth   : s.WithinDepth
  /-- A tick runs only while Running (60_exceptions R121, R122). -/
  running : s.slotsLeft ≠ 0 → s.runState = .running
  /-- NONE goes with zero fields (60_exceptions R116). -/
  noFault : s.fault.cause = .noFault → s.fault.pc = 0 ∧ s.fault.op = 0
  /-- A recorded overflow names the 2nnn that pc still points at (60_exceptions R114, R115). -/
  faulted : s.fault.cause = .stackOverflow → s.pc = s.fault.pc ∧ s.fault.pc.toNat ≤ 0xFFE ∧ n1 s.fault.op = 0x2
  /-- Stopped is entered only through reset and nothing runs in it (70_reset_and_hazards R138). -/
  stopped : s.runState = .stopped → s.ResetButMemory

end Sys2Proof.Machine
end

