-- ==== Sys2Proof/Certificates/Slice0/Obligations.lean ====
section
/-! DEFINITION. The statements for the provers. "pc" of an instruction's state is the already-advanced value
(spec 40_execute_cycle R72), so an instruction that keeps pc goes on at the next word. -/

namespace Sys2Proof.Claims

open Sys2Proof Sys2Proof.Machine

/-- Every word with the fixed bits of a row of 30_encoding R61 decodes to that row's instruction and fields. -/
def RowDecodes (pattern mask : Word) (f : Word → Instr) : Prop :=
  ∀ op : Word, op &&& mask = pattern → decode op = .ok (f op)

/-- Only register `x` may differ: every other register and every other part of the state is unchanged. -/
def OnlyReg (x : Reg) (s t : State) : Prop :=
  (∀ r, r ≠ x → t.reg r = s.reg r) ∧ KeepsAllBut [.regs] s t

/-- Only register `x` and VF may differ. -/
def OnlyRegAndVF (x : Reg) (s t : State) : Prop :=
  (∀ r, r ≠ x → r ≠ regVF → t.reg r = s.reg r) ∧ KeepsAllBut [.regs] s t

/-- A skip: pc takes a further 2 (mod 2^16) exactly when the condition holds, and nothing else changes. -/
def Skips (condition : Prop) (s t : State) : Prop :=
  (condition → t.pc = s.pc + 2) ∧ (¬ condition → t.pc = s.pc) ∧ KeepsAllBut [.pc] s t

/-- The register that 8xy6 and 8xyE shift. -/
def shiftedReg (s : State) (x y : Reg) : Reg := if s.config.shiftQuirk = .inPlace then x else y

/-- The sprite's bit on pixel (X, Y), where it has one, for a sprite of `n` rows at I drawn from the start
coordinates `V[x] mod 64`, `V[y] mod 32` (44_display R104, R106). -/
def spriteBit (s : State) (x y : Reg) (n X Y : Nat) : Bool :=
  decide ((s.reg x).toNat % 64 ≤ X ∧ X < (s.reg x).toNat % 64 + 8 ∧
    (s.reg y).toNat % 32 ≤ Y ∧ Y < (s.reg y).toNat % 32 + n) &&
  (s.memRead (s.addrAt (Y - (s.reg y).toNat % 32))).getLsbD (7 - (X - (s.reg x).toNat % 64))

/-- Some pixel that is on has a sprite bit of 1 on it. -/
def Collides (s : State) (x y : Reg) (n : Nat) : Prop :=
  ∃ X Y, X ≤ 63 ∧ Y ≤ 31 ∧ s.fb.pixel X Y = true ∧ spriteBit s x y n X Y = true

/-- Some pixel that is off has a sprite bit of 1 on it. -/
def TurnsOn (s : State) (x y : Reg) (n : Nat) : Prop :=
  ∃ X Y, X ≤ 63 ∧ Y ≤ 31 ∧ s.fb.pixel X Y = false ∧ spriteBit s x y n X Y = true

/-- The stack holds as many entries as it may (41_flow R78). -/
def Full (s : State) : Prop := ∃ entries positive, s.config.stackDepth = .bounded entries positive ∧ s.stack.length = entries

/-- The parts of the state that an instruction may write (10_state R14, R19, R22, R24, R26, R29, R31 to R34). -/
def mayWrite : Instr → List Part
  | .cls => [.fb]
  | .ret => [.pc, .stack]
  | .jp _ => [.pc]
  | .call _ => [.pc, .stack, .fault]
  | .seImm _ _ => [.pc]
  | .sneImm _ _ => [.pc]
  | .seReg _ _ _ => [.pc]
  | .ldImm _ _ => [.regs]
  | .addImm _ _ => [.regs]
  | .ldReg _ _ => [.regs]
  | .orReg _ _ => [.regs]
  | .andReg _ _ => [.regs]
  | .xorReg _ _ => [.regs]
  | .addReg _ _ => [.regs]
  | .subReg _ _ => [.regs]
  | .shr _ _ => [.regs]
  | .subn _ _ => [.regs]
  | .shl _ _ => [.regs]
  | .sneReg _ _ _ => [.pc]
  | .ldI _ => [.index]
  | .jpV0 _ => [.pc]
  | .rnd _ _ => [.regs, .rnd]
  | .drw _ _ _ => [.regs, .fb]
  | .skp _ => [.pc]
  | .sknp _ => [.pc]
  | .ldVxDt _ => [.regs]
  | .ldVxK _ => [.regs, .pc]
  | .ldDtVx _ => [.dt]
  | .ldStVx _ => [.st]
  | .addI _ => [.index]
  | .ldF _ => [.index]
  | .ldB _ => [.mem]
  | .ldMemVx _ => [.mem]
  | .ldVxMem _ => [.regs]

/-- The registers that an instruction may write (10_state R14). -/
def mayWriteReg : Instr → Reg → Prop
  | .ldImm x _, r => r = x
  | .addImm x _, r => r = x
  | .ldReg x _, r => r = x
  | .orReg x _, r => r = x
  | .andReg x _, r => r = x
  | .xorReg x _, r => r = x
  | .addReg x _, r => r = x ∨ r = regVF
  | .subReg x _, r => r = x ∨ r = regVF
  | .shr x _, r => r = x ∨ r = regVF
  | .subn x _, r => r = x ∨ r = regVF
  | .shl x _, r => r = x ∨ r = regVF
  | .rnd x _, r => r = x
  | .drw _ _ _, r => r = regVF
  | .ldVxDt x, r => r = x
  | .ldVxK x, r => r = x
  | .ldVxMem x, r => r ≤ x
  | _, _ => False

/-- The three instructions that read the keypad (10_state R30). -/
def readsKeypad : Instr → Prop
  | .skp _ => True
  | .sknp _ => True
  | .ldVxK _ => True
  | _ => False

/-- Two states that agree on all that instructions may read: not on ST, run_state, the fault register, the
position in the tick, the host's script and the outputs (10_state R23, R32, R33, R36). -/
def AgreeOnRead (s t : State) : Prop :=
  t.v = s.v ∧ t.index = s.index ∧ t.pc = s.pc ∧ t.stack = s.stack ∧ t.dt = s.dt ∧ t.fb = s.fb ∧ t.mem = s.mem ∧
  t.keypad = s.keypad ∧ t.config = s.config ∧ t.rndIn = s.rndIn ∧ t.rndDrawn = s.rndDrawn

/-- The next step of `s` is a slot of the running tick, and `u` is the state the slot starts from: one slot fewer to
come, the last events gone, and the host quiet, letting the core move, or with a command that waits for the boundary
(log 1, log 2, log 19). -/
def SlotNext (s u : State) : Prop :=
  ∃ n rest, s.slotsLeft = n + 1 ∧ u = ((s.setOut []).setScript rest).setSlotsLeft n ∧
    ((s.script = [] ∧ rest = []) ∨ s.script = .pass :: rest ∨ ∃ c later, s.script = .command c :: later ∧ rest = s.script)

/-- `n` steps. -/
def run (n : Nat) (s : State) : Host.Outcome State Fault Refusal := Host.Core.run Sys2Proof.core n s

/-- What byte `a` of memory holds after `reset()` (10_state R37). -/
def resetImage (font : Vector Byte 80) (a : Nat) : Byte :=
  if h : 0x050 ≤ a ∧ a < 0x0A0 then font[a - 0x050]'(by omega) else 0x00

/-- Byte `a` of the memory image `under` with the ROM `b` copied to 0x200. -/
def romOver (b : List Byte) (under : Nat → Byte) (a : Nat) : Byte :=
  if 0x200 ≤ a ∧ a < 0x200 + b.length then b.getD (a - 0x200) 0x00 else under a

/-- What a reset does not touch: the keypad and the configuration (70_reset_and_hazards R131), and, by the model's choice
(log 2, log 4), the script and the random source. -/
def HostFieldsKept (s t : State) : Prop :=
  Keeps s t .keypad ∧ Keeps s t .config ∧ Keeps s t .script ∧ Keeps s t .rnd

end Sys2Proof.Claims

open Sys2Proof Sys2Proof.Machine Sys2Proof.Claims

/-! ### Encoding -/

/-- 30_encoding R60, R61: words written out by hand from the patterns decode to the instructions they stand for. -/
def Obligations.KnownWordsDecode : Prop :=
  decode 0x00E0 = .ok .cls ∧ decode 0x00EE = .ok .ret ∧ decode 0x1208 = .ok (.jp 0x208) ∧
  decode 0x3310 = .ok (.seImm 3 0x10) ∧ decode 0x512F = .ok (.seReg 1 2 0xF) ∧ decode 0x8984 = .ok (.addReg 9 8) ∧
  decode 0x812E = .ok (.shl 1 2) ∧ decode 0xA250 = .ok (.ldI 0x250) ∧ decode 0xC30F = .ok (.rnd 3 0x0F) ∧
  decode 0xD121 = .ok (.drw 1 2 1) ∧ decode 0xE5A1 = .ok (.sknp 5) ∧ decode 0xFF65 = .ok (.ldVxMem 15) ∧
  decode 0x0123 = .error (.undefinedWord 0x0123) ∧ decode 0x800F = .error (.undefinedWord 0x800F)

/-- 30_encoding R58, R61: no bit of an encoding is dropped. -/
def Obligations.DecodeOfEncodeIsTheInstruction : Prop :=
  ∀ i : Instr, i.wellFormed = true → decode (encode i) = .ok i

/-- 30_encoding R61: every word that decodes is the encoding of what it decodes to. -/
def Obligations.EncodeOfDecodeIsTheWord : Prop :=
  ∀ (op : Word) (i : Instr), decode op = .ok i → encode i = op ∧ i.wellFormed = true

/-- 30_encoding R60, R61: the opcode map decodes every word as the case analysis on its nibbles does (the spec's
decision D17 settles the 0x0 group). -/
def Obligations.OpcodeMapIsTheCaseAnalysis : Prop :=
  ∀ op : Word, decode op =
    match dispatchR60 op with
    | some i => .ok i
    | none => .error (.undefinedWord op)

/-- 30_encoding R62, R64: exactly these words are UNDEFINED (the spec's decision D17 settles the 0x0 group). -/
def Obligations.UndefinedWordsAreTheListed : Prop :=
  ∀ op : Word, decode op = .error (.undefinedWord op) ↔
    (n1 op = 0x0 ∧ op ≠ 0x00E0 ∧ op ≠ 0x00EE) ∨
    (n1 op = 0x8 ∧ n4 op ∈ [0x8, 0x9, 0xA, 0xB, 0xC, 0xD, 0xF]) ∨
    (n1 op = 0xE ∧ fieldKK op ∉ [0x9E, 0xA1]) ∨
    (n1 op = 0xF ∧ fieldKK op ∉ [0x07, 0x0A, 0x15, 0x18, 0x1E, 0x29, 0x33, 0x55, 0x65])

/-! ### Control flow -/

/-- 41_flow R76 (the empty stack: the spec's decision D6). -/
def Obligations.ReturnFromSubroutine : Prop :=
  RowDecodes 0x00EE 0xFFFF (fun _ => .ret) ∧
  ∀ s : State, ∃ t, exec .ret s = .next t ∧
    (∀ top rest, s.stack = top :: rest → t.pc = top ∧ t.stack = rest) ∧
    (s.stack = [] → t.pc = 0x200 ∧ t.stack = []) ∧
    KeepsAllBut [.pc, .stack] s t

/-- 41_flow R77. -/
def Obligations.JumpAbsolute : Prop :=
  RowDecodes 0x1000 0xF000 (fun op => .jp (fieldNNN op)) ∧
  ∀ nnn s, ∃ t, exec (.jp nnn) s = .next t ∧ t.pc.toNat = nnn.toNat ∧ KeepsAllBut [.pc] s t

/-- 41_flow R78, the fault being that of 60_exceptions R114 (the spec's decisions D4, D5): `a` is the address of the
2nnn and `op` its word. -/
def Obligations.CallSubroutine : Prop :=
  RowDecodes 0x2000 0xF000 (fun op => .call (fieldNNN op)) ∧
  (∀ nnn s, ¬ Full s → ∃ t, exec (.call nnn) s = .next t ∧
    t.stack = s.pc :: s.stack ∧ t.pc.toNat = nnn.toNat ∧ KeepsAllBut [.pc, .stack] s t) ∧
  (∀ nnn s a op, Full s → s.pc = a + 2 → decode op = .ok (.call nnn) → ∃ t, exec (.call nnn) s = .next t ∧
    t.pc = a ∧ t.fault = ⟨.stackOverflow, a, op⟩ ∧ KeepsAllBut [.pc, .fault] s t)

/-- 41_flow R79, under both values of JUMP_QUIRK (the spec's parameter, decision D15); the sum never wraps. -/
def Obligations.JumpWithOffset : Prop :=
  RowDecodes 0xB000 0xF000 (fun op => .jpV0 (fieldNNN op)) ∧
  ∀ nnn s, ∃ t, exec (.jpV0 nnn) s = .next t ∧
    (s.config.jumpQuirk = .v0 → t.pc.toNat = (s.reg 0).toNat + nnn.toNat) ∧
    (s.config.jumpQuirk = .vx → t.pc.toNat = (s.reg (regOf (nnn.extractLsb' 8 4))).toNat + nnn.toNat) ∧
    KeepsAllBut [.pc] s t

/-- 41_flow R80, R81. -/
def Obligations.SkipOnImmediate : Prop :=
  RowDecodes 0x3000 0xF000 (fun op => .seImm (fieldX op) (fieldKK op)) ∧
  RowDecodes 0x4000 0xF000 (fun op => .sneImm (fieldX op) (fieldKK op)) ∧
  ∀ x kk s, (∃ t, exec (.seImm x kk) s = .next t ∧ Skips (s.reg x = kk) s t) ∧
    (∃ t, exec (.sneImm x kk) s = .next t ∧ Skips (s.reg x ≠ kk) s t)

/-- 41_flow R82, R83: for every value of the low nibble. -/
def Obligations.SkipOnRegister : Prop :=
  RowDecodes 0x5000 0xF000 (fun op => .seReg (fieldX op) (fieldY op) (n4 op)) ∧
  RowDecodes 0x9000 0xF000 (fun op => .sneReg (fieldX op) (fieldY op) (n4 op)) ∧
  ∀ x y ignored s, (∃ t, exec (.seReg x y ignored) s = .next t ∧ Skips (s.reg x = s.reg y) s t) ∧
    (∃ t, exec (.sneReg x y ignored) s = .next t ∧ Skips (s.reg x ≠ s.reg y) s t)

/-! ### Registers and arithmetic -/

/-- 42_alu R84, R86. -/
def Obligations.LoadRegister : Prop :=
  RowDecodes 0x6000 0xF000 (fun op => .ldImm (fieldX op) (fieldKK op)) ∧
  RowDecodes 0x8000 0xF00F (fun op => .ldReg (fieldX op) (fieldY op)) ∧
  (∀ x kk s, ∃ t, exec (.ldImm x kk) s = .next t ∧ t.reg x = kk ∧ OnlyReg x s t) ∧
  (∀ x y s, ∃ t, exec (.ldReg x y) s = .next t ∧ t.reg x = s.reg y ∧ OnlyReg x s t)

/-- 42_alu R85: no flag, so VF is unchanged unless it is the destination. -/
def Obligations.AddImmediateSetsNoFlag : Prop :=
  RowDecodes 0x7000 0xF000 (fun op => .addImm (fieldX op) (fieldKK op)) ∧
  ∀ x kk s, ∃ t, exec (.addImm x kk) s = .next t ∧
    (t.reg x).toNat = ((s.reg x).toNat + kk.toNat) % 256 ∧ OnlyReg x s t

/-- 42_alu R87, R88, R89, bit by bit; VF is unchanged unless it is the destination. -/
def Obligations.LogicOperations : Prop :=
  RowDecodes 0x8001 0xF00F (fun op => .orReg (fieldX op) (fieldY op)) ∧
  RowDecodes 0x8002 0xF00F (fun op => .andReg (fieldX op) (fieldY op)) ∧
  RowDecodes 0x8003 0xF00F (fun op => .xorReg (fieldX op) (fieldY op)) ∧
  ∀ x y s,
    (∃ t, exec (.orReg x y) s = .next t ∧
      (∀ k, k < 8 → (t.reg x).getLsbD k = ((s.reg x).getLsbD k || (s.reg y).getLsbD k)) ∧ OnlyReg x s t) ∧
    (∃ t, exec (.andReg x y) s = .next t ∧
      (∀ k, k < 8 → (t.reg x).getLsbD k = ((s.reg x).getLsbD k && (s.reg y).getLsbD k)) ∧ OnlyReg x s t) ∧
    (∃ t, exec (.xorReg x y) s = .next t ∧
      (∀ k, k < 8 → (t.reg x).getLsbD k = ((s.reg x).getLsbD k ^^ (s.reg y).getLsbD k)) ∧ OnlyReg x s t)

/-- 42_alu R90: VF = carry, written last (for x = F the order is also the spec's decision D9). -/
def Obligations.AddSetsCarry : Prop :=
  RowDecodes 0x8004 0xF00F (fun op => .addReg (fieldX op) (fieldY op)) ∧
  ∀ x y s, ∃ t, exec (.addReg x y) s = .next t ∧
    (x ≠ regVF → (t.reg x).toNat = ((s.reg x).toNat + (s.reg y).toNat) % 256) ∧
    t.reg regVF = (if (s.reg x).toNat + (s.reg y).toNat > 0xFF then 0x01 else 0x00) ∧
    OnlyRegAndVF x s t

/-- 42_alu R91, R93: VF = NOT borrow (the spec's reading of "borrow" is marked derived), written last (decision D9). -/
def Obligations.SubtractSetsNotBorrow : Prop :=
  RowDecodes 0x8005 0xF00F (fun op => .subReg (fieldX op) (fieldY op)) ∧
  RowDecodes 0x8007 0xF00F (fun op => .subn (fieldX op) (fieldY op)) ∧
  ∀ x y s,
    (∃ t, exec (.subReg x y) s = .next t ∧
      (x ≠ regVF → (t.reg x).toNat = (256 + (s.reg x).toNat - (s.reg y).toNat) % 256) ∧
      t.reg regVF = (if (s.reg x).toNat ≥ (s.reg y).toNat then 0x01 else 0x00) ∧ OnlyRegAndVF x s t) ∧
    (∃ t, exec (.subn x y) s = .next t ∧
      (x ≠ regVF → (t.reg x).toNat = (256 + (s.reg y).toNat - (s.reg x).toNat) % 256) ∧
      t.reg regVF = (if (s.reg y).toNat ≥ (s.reg x).toNat then 0x01 else 0x00) ∧ OnlyRegAndVF x s t)

/-- 42_alu R92, R94, under both values of SHIFT_QUIRK (the spec's parameter, decision D15): VF = the dropped bit,
written last (decision D9). -/
def Obligations.ShiftsSetDroppedBit : Prop :=
  RowDecodes 0x8006 0xF00F (fun op => .shr (fieldX op) (fieldY op)) ∧
  RowDecodes 0x800E 0xF00F (fun op => .shl (fieldX op) (fieldY op)) ∧
  ∀ x y s,
    (∃ t, exec (.shr x y) s = .next t ∧
      (x ≠ regVF → (t.reg x).toNat = (s.reg (shiftedReg s x y)).toNat / 2) ∧
      (t.reg regVF).toNat = (s.reg (shiftedReg s x y)).toNat % 2 ∧ OnlyRegAndVF x s t) ∧
    (∃ t, exec (.shl x y) s = .next t ∧
      (x ≠ regVF → (t.reg x).toNat = (s.reg (shiftedReg s x y)).toNat * 2 % 256) ∧
      (t.reg regVF).toNat = (s.reg (shiftedReg s x y)).toNat / 128 ∧ OnlyRegAndVF x s t)

/-- 42_alu R95 (decision D18). THE MODEL'S CHOICE (log 4) is where the draw comes from: the next byte waiting on the
RND input or, when none waits, a free value that is never given again. -/
def Obligations.RandomByteIsMasked : Prop :=
  RowDecodes 0xC000 0xF000 (fun op => .rnd (fieldX op) (fieldKK op)) ∧
  (∀ x kk s r rest, s.rndIn = r :: rest → ∃ t, exec (.rnd x kk) s = .next t ∧ t.reg x = r &&& kk ∧
    t.rndIn = rest ∧ t.rndDrawn = s.rndDrawn ∧ (∀ q, q ≠ x → t.reg q = s.reg q) ∧ KeepsAllBut [.regs, .rnd] s t) ∧
  (∀ x kk s, s.rndIn = [] → ∃ t, exec (.rnd x kk) s = .next t ∧ t.reg x = Config.freeRnd s.rndDrawn &&& kk ∧
    t.rndIn = [] ∧ t.rndDrawn = s.rndDrawn + 1 ∧ (∀ q, q ≠ x → t.reg q = s.reg q) ∧ KeepsAllBut [.regs, .rnd] s t)

/-! ### Index and memory -/

/-- 43_index_memory R97, R98: no flag. -/
def Obligations.IndexLoadAndAdd : Prop :=
  RowDecodes 0xA000 0xF000 (fun op => .ldI (fieldNNN op)) ∧
  RowDecodes 0xF01E 0xF0FF (fun op => .addI (fieldX op)) ∧
  (∀ nnn s, ∃ t, exec (.ldI nnn) s = .next t ∧ t.index.toNat = nnn.toNat ∧ KeepsAllBut [.index] s t) ∧
  (∀ x s, ∃ t, exec (.addI x) s = .next t ∧ t.index.toNat = (s.index.toNat + (s.reg x).toNat) % 65536 ∧
    KeepsAllBut [.index] s t)

/-- 43_index_memory R99, under both values of GLYPH_STRIDE (the spec's parameter, decision D16). -/
def Obligations.GlyphAddress : Prop :=
  RowDecodes 0xF029 0xF0FF (fun op => .ldF (fieldX op)) ∧
  ∀ x s, ∃ t, exec (.ldF x) s = .next t ∧
    (s.config.glyphStride = .one → t.index.toNat = 0x050 + (s.reg x).toNat % 16) ∧
    (s.config.glyphStride = .five → t.index.toNat = 0x050 + 5 * ((s.reg x).toNat % 16)) ∧
    KeepsAllBut [.index] s t

/-- 43_index_memory R100: a digit whose address is above 0xFFF is discarded, the others are written. -/
def Obligations.StoreDecimalDigits : Prop :=
  RowDecodes 0xF033 0xF0FF (fun op => .ldB (fieldX op)) ∧
  ∀ x s, s.mem.wf = true → ∃ t, exec (.ldB x) s = .next t ∧
    (s.addrAt 0 ≤ 0xFFF → (t.memRead (s.addrAt 0)).toNat = (s.reg x).toNat / 100) ∧
    (s.addrAt 1 ≤ 0xFFF → (t.memRead (s.addrAt 1)).toNat = (s.reg x).toNat / 10 % 10) ∧
    (s.addrAt 2 ≤ 0xFFF → (t.memRead (s.addrAt 2)).toNat = (s.reg x).toNat % 10) ∧
    (∀ a, (a ≤ 0xFFF → a ≠ s.addrAt 0 ∧ a ≠ s.addrAt 1 ∧ a ≠ s.addrAt 2) → t.memRead a = s.memRead a) ∧
    KeepsAllBut [.mem] s t

/-- 43_index_memory R101: a byte above 0xFFF is discarded, the others are written; I is unchanged. -/
def Obligations.StoreRegisters : Prop :=
  RowDecodes 0xF055 0xF0FF (fun op => .ldMemVx (fieldX op)) ∧
  ∀ x s, s.mem.wf = true → ∃ t, exec (.ldMemVx x) s = .next t ∧
    (∀ r : Reg, r ≤ x → s.addrAt r.val ≤ 0xFFF → t.memRead (s.addrAt r.val) = s.reg r) ∧
    (∀ a, (a ≤ 0xFFF → ∀ r : Reg, r ≤ x → a ≠ s.addrAt r.val) → t.memRead a = s.memRead a) ∧
    KeepsAllBut [.mem] s t

/-- 43_index_memory R102: registers above x and I are unchanged; a read above 0xFFF gives 0x00. -/
def Obligations.LoadRegisters : Prop :=
  RowDecodes 0xF065 0xF0FF (fun op => .ldVxMem (fieldX op)) ∧
  ∀ x s, ∃ t, exec (.ldVxMem x) s = .next t ∧
    (∀ r : Reg, r ≤ x → s.addrAt r.val ≤ 0xFFF → t.reg r = s.memRead (s.addrAt r.val)) ∧
    (∀ r : Reg, r ≤ x → s.addrAt r.val > 0xFFF → t.reg r = 0x00) ∧
    (∀ r : Reg, ¬ r ≤ x → t.reg r = s.reg r) ∧
    KeepsAllBut [.regs] s t

/-- The round trip of 10_state R22: storing V0..Vx and loading them back from the same I restores them, whatever
else has changed between, as long as memory and I are the same and the bytes lie in memory. -/
def Obligations.StoreThenLoadRestores : Prop :=
  ∀ x s t u, s.mem.wf = true → s.addrAt x.val ≤ 0xFFF → exec (.ldMemVx x) s = .next t →
    (∀ a, u.memRead a = t.memRead a) → u.index = t.index →
    ∃ w, exec (.ldVxMem x) u = .next w ∧ ∀ r : Reg, r ≤ x → w.reg r = s.reg r

/-- 20_memory R40, R41: an address above 0xFFF reads as 0x00, a write there is discarded, and no address is
reduced (the spec's decision D2); a write changes one byte and nothing else. -/
def Obligations.MemoryReadAfterWrite : Prop :=
  (∀ (s : State) a, a > 0xFFF → s.memRead a = 0x00) ∧
  ∀ (s : State) a x, s.mem.wf = true →
    (a ≤ 0xFFF → (s.memWrite a x).memRead a = x) ∧
    (∀ b, (a ≤ 0xFFF → b ≠ a) → (s.memWrite a x).memRead b = s.memRead b) ∧
    KeepsAllBut [.mem] s (s.memWrite a x)

/-! ### Display -/

/-- 44_display R103. -/
def Obligations.ClearDisplay : Prop :=
  RowDecodes 0x00E0 0xFFFF (fun _ => .cls) ∧
  ∀ s, ∃ t, exec .cls s = .next t ∧ (∀ x y, x ≤ 63 → y ≤ 31 → t.fb.pixel x y = false) ∧ KeepsAllBut [.fb] s t

/-- 44_display R104, R105, R106: every pixel after is the pixel before exclusive-or the sprite's bit on it; VF is 1
exactly when some sprite bit of 1 met a pixel that was on; the sprite clips at the right and bottom edges. The
coordinates are read before VF is cleared (the spec's decision D23). -/
def Obligations.DrawSpriteXorsAndCollides : Prop :=
  RowDecodes 0xD000 0xF000 (fun op => .drw (fieldX op) (fieldY op) (fieldN op)) ∧
  ∀ x y n s, ∃ t, exec (.drw x y n) s = .next t ∧
    (∀ X Y, X ≤ 63 → Y ≤ 31 → t.fb.pixel X Y = (s.fb.pixel X Y ^^ spriteBit s x y n X Y)) ∧
    (Collides s x y n → t.reg regVF = 0x01) ∧ (¬ Collides s x y n → t.reg regVF = 0x00) ∧
    (∀ r, r ≠ regVF → t.reg r = s.reg r) ∧ KeepsAllBut [.regs, .fb] s t

/-- 44_display R104, R105: drawing the same sprite twice at the same place restores the display, and the second draw
sets VF to 1 exactly when the first turned a pixel on, as R104's pseudocode and R105 have it (DEDUCED, log 20: R104's
own remark that this is whenever the sprite has a visible 1 bit is not taken where every such bit met a lit pixel). The premises on the coordinates matter where x or y is VF, which
the first draw overwrites. -/
def Obligations.DrawingTwiceRestores : Prop :=
  ∀ x y n s t, exec (.drw x y n) s = .next t →
    (t.reg x).toNat % 64 = (s.reg x).toNat % 64 → (t.reg y).toNat % 32 = (s.reg y).toNat % 32 →
    ∃ u, exec (.drw x y n) t = .next u ∧ u.fb = s.fb ∧
      (TurnsOn s x y n → u.reg regVF = 0x01) ∧ (¬ TurnsOn s x y n → u.reg regVF = 0x00)

/-! ### Keypad and timers -/

/-- 45_timers_keypad R107, R108: a number above 0xF names no key and reads as up (the spec's decision D10). -/
def Obligations.SkipOnKey : Prop :=
  RowDecodes 0xE09E 0xF0FF (fun op => .skp (fieldX op)) ∧
  RowDecodes 0xE0A1 0xF0FF (fun op => .sknp (fieldX op)) ∧
  ∀ x s,
    (∃ t, exec (.skp x) s = .next t ∧ Skips ((s.reg x).toNat ≤ 0xF ∧ s.keypad.getLsbD (s.reg x).toNat = true) s t) ∧
    (∃ t, exec (.sknp x) s = .next t ∧
      Skips (¬ ((s.reg x).toNat ≤ 0xF ∧ s.keypad.getLsbD (s.reg x).toNat = true)) s t)

/-- 45_timers_keypad R110: the wait re-executes with no key down; else the lowest key down is taken. -/
def Obligations.WaitForKey : Prop :=
  RowDecodes 0xF00A 0xF0FF (fun op => .ldVxK (fieldX op)) ∧
  (∀ x s, (∀ k, k < 16 → s.keypad.getLsbD k = false) →
    ∃ t, exec (.ldVxK x) s = .next t ∧ t.pc = s.pc - 2 ∧ KeepsAllBut [.pc] s t) ∧
  (∀ x s k, k < 16 → s.keypad.getLsbD k = true → (∀ j, j < k → s.keypad.getLsbD j = false) →
    ∃ t, exec (.ldVxK x) s = .next t ∧ (t.reg x).toNat = k ∧ OnlyReg x s t)

/-- 45_timers_keypad R109, R111, R112. -/
def Obligations.TimerAccess : Prop :=
  RowDecodes 0xF007 0xF0FF (fun op => .ldVxDt (fieldX op)) ∧
  RowDecodes 0xF015 0xF0FF (fun op => .ldDtVx (fieldX op)) ∧
  RowDecodes 0xF018 0xF0FF (fun op => .ldStVx (fieldX op)) ∧
  ∀ x s, (∃ t, exec (.ldVxDt x) s = .next t ∧ t.reg x = s.dt ∧ OnlyReg x s t) ∧
    (∃ t, exec (.ldDtVx x) s = .next t ∧ t.dt = s.reg x ∧ KeepsAllBut [.dt] s t) ∧
    (∃ t, exec (.ldStVx x) s = .next t ∧ t.st = s.reg x ∧ KeepsAllBut [.st] s t)

/-! ### Rules over all instructions -/

/-- 10_state R14, R19, R22, R24, R26, R29, R31, R32, R34: an instruction writes only the parts listed for it. -/
def Obligations.InstructionsWriteOnlyTheirParts : Prop :=
  ∀ i s t, exec i s = .next t → KeepsAllBut (mayWrite i) s t

/-- 10_state R14, R16: an instruction writes only the registers listed for it; no other writes VF. -/
def Obligations.InstructionsWriteOnlyTheirRegisters : Prop :=
  ∀ i s t r, exec i s = .next t → ¬ mayWriteReg i r → t.reg r = s.reg r

/-- 10_state R30: only Ex9E, ExA1 and Fx0A read the keypad. -/
def Obligations.KeypadIsReadByThreeInstructions : Prop :=
  ∀ i s t keys, ¬ readsKeypad i → exec i s = .next t → exec i (s.setKeypad keys) = .next (t.setKeypad keys)

/-- 10_state R23, R32, R33: no instruction reads ST, run_state or the fault register (nor the position in the tick,
the host's script or the outputs): states that agree on the rest go on agreeing on it. -/
def Obligations.HiddenStateIsNeverRead : Prop :=
  ∀ i s s' t, AgreeOnRead s s' → exec i s = .next t → ∃ t', exec i s' = .next t' ∧ AgreeOnRead t t'

/-- 60_exceptions R116: no instruction but a 2nnn with a full stack raises a fault. -/
def Obligations.OnlyFullCallFaults : Prop :=
  ∀ i s t, exec i s = .next t → t.fault ≠ s.fault → (∃ nnn, i = .call nnn) ∧ Full s

/-- 41_flow R76, R78, 10_state R26: a RET after a CALL goes back to the word after the CALL with the stack as it was. -/
def Obligations.ReturnUndoesCall : Prop :=
  ∀ nnn s t u, ¬ Full s → exec (.call nnn) s = .next t → u.stack = t.stack →
    ∃ w, exec .ret u = .next w ∧ w.pc = s.pc ∧ w.stack = s.stack

/-! ### The slot -/

/-- 20_memory R47. -/
def Obligations.FetchIsBigEndian : Prop :=
  ∀ s : State, s.fetchWord.toNat = (s.memRead s.pc.toNat).toNat * 256 + (s.memRead (s.pc.toNat + 1)).toNat ∧
    n1 s.fetchWord = (s.memRead s.pc.toNat).extractLsb' 4 4 ∧ n2 s.fetchWord = (s.memRead s.pc.toNat).extractLsb' 0 4 ∧
    n3 s.fetchWord = (s.memRead (s.pc.toNat + 1)).extractLsb' 4 4 ∧
    n4 s.fetchWord = (s.memRead (s.pc.toNat + 1)).extractLsb' 0 4

/-- 40_execute_cycle R69, R72, R73: when the next step is a slot and the word at pc decodes to `i`, the step is `exec i`
of the state with the word traced and pc advanced by 2. THE MODEL'S CHOICE (log 1, log 10): a step is one slot, and
it ends by emitting the REG_CHANGE events. -/
def Obligations.StepRunsDecodedInstruction : Prop :=
  ∀ s u i, SlotNext s u → u.fault.cause = .noFault → u.pc.toNat ≤ 0xFFE →
    decode (wordOfBytes (u.memRead u.pc.toNat) (u.memRead (u.pc.toNat + 1))) = .ok i →
    ∃ t, exec i ((u.setOut (u.out ++ [.trace u.fetchWord])).setPc (u.pc + 2)) = .next t ∧
      step s = .next (t.setOut (t.out ++ regChanges u t))

/-- 40_execute_cycle R71, R74: every step that is a slot is `executeOne` of the state it starts from (THE MODEL'S CHOICE,
log 1: a step is one slot); a slot past the end of memory and a slot with an UNDEFINED word are no-ops; the first
traces nothing, the second its word (the spec's decisions D3, D17). -/
def Obligations.NoOpSlots : Prop :=
  (∀ s u, SlotNext s u → step s = executeOne u) ∧
  (∀ s : State, s.fault.cause = .noFault → s.pc.toNat ≥ 0xFFF → ∃ t, executeOne s = .next t ∧
    t.pc.toNat = (s.pc.toNat + 2) % 65536 ∧ KeepsAllBut [.pc] s t) ∧
  (∀ s : State, s.fault.cause = .noFault → s.pc.toNat ≤ 0xFFE → decode s.fetchWord = .error (.undefinedWord s.fetchWord) →
    ∃ t, executeOne s = .next t ∧ t.pc.toNat = s.pc.toNat + 2 ∧ t.out = s.out ++ [.trace s.fetchWord] ∧
      KeepsAllBut [.pc, .out] s t)

/-- 60_exceptions R114 (the spec's decisions D4, D5): the fault is precise. A slot at `a` whose word `op` is a 2nnn
with a full stack leaves everything as it was but the fault register, and its TRACE event is emitted. -/
def Obligations.FaultIsPrecise : Prop :=
  ∀ (s : State) nnn, s.fault.cause = .noFault → s.pc.toNat ≤ 0xFFE → decode s.fetchWord = .ok (.call nnn) → Full s →
    ∃ t, executeOne s = .next t ∧ t.fault = ⟨.stackOverflow, s.pc, s.fetchWord⟩ ∧
      t.out = s.out ++ [.trace s.fetchWord] ∧ KeepsAllBut [.fault, .out] s t

/-- 60_exceptions R128: the outputs never affect the core. -/
def Obligations.ObserversAffectNothing : Prop :=
  ∀ (s : State) events, step (s.setOut events) = step s

/-- 60_exceptions R128 (decision D25): an instruction that changes a register is followed by that register's
REG_CHANGE event with the new value, and no REG_CHANGE event comes for another register or with another value. -/
def Obligations.RegisterChangesAreReported : Prop :=
  ∀ s u t, SlotNext s u → u.out = [] → step s = .next t → ∀ r x,
    Output.regChange r x ∈ t.out ↔ t.reg r ≠ u.reg r ∧ x = t.reg r

/-- THE MODEL'S READING (log 16, DEDUCED from 60_exceptions R113, R114, R115): nothing stops a step, since the one fault
of the spec is a state of the machine. -/
def Obligations.EveryStepAnswersNext : Prop :=
  ∀ s, ∃ t, step s = .next t

/-! ### Ticks, runs and the host. A step is a slot, the start of a tick or a host move (log 1, log 2). -/

/-- 60_exceptions R115, with a quiet host: however many steps follow, a faulted core changes nothing but the count of
the slots left in the tick and the outputs of the last step. -/
def Obligations.FaultedCoreIsQuiescent : Prop :=
  ∀ n s, s.Faulted → s.script = [] → ∃ t, run n s = .next t ∧ KeepsAllBut [.slots, .out] s t

/-- 60_exceptions R121, R122, with a quiet host (log 3: TICK is what comes at a boundary): not Running, or faulted,
nothing changes; else both timers decay once, floor 0, and then exactly TICK_RATE slots run before the next boundary. -/
def Obligations.TickRunsItsSlots : Prop :=
  ∀ s : State, s.slotsLeft = 0 → s.script = [] →
    (s.runState ≠ .running ∨ s.Faulted → step s = .next (s.setOut [])) ∧
    (s.runState = .running → ¬ s.Faulted → ∃ t, step s = .next t ∧
      t.dt.toNat = s.dt.toNat - 1 ∧ t.st.toNat = s.st.toNat - 1 ∧ KeepsAllBut [.dt, .st, .slots, .out] s t ∧
      ∀ k, k ≤ s.config.tickRate → ∃ u, run k t = .next u ∧ u.slotsLeft = s.config.tickRate - k ∧
        u.runState = .running ∧ u.script = [])

/-- 10_state R24, 70_reset_and_hazards R143: inside a tick, DT changes only by an Fx15 and ST only by an Fx18. -/
def Obligations.TimersChangeInsideATickOnlyByInstruction : Prop :=
  ∀ s t, step s = .next t → s.slotsLeft ≠ 0 →
    (t.dt ≠ s.dt → ∃ u x, SlotNext s u ∧ decode u.fetchWord = .ok (.ldDtVx x)) ∧
    (t.st ≠ s.st → ∃ u x, SlotNext s u ∧ decode u.fetchWord = .ok (.ldStVx x))

/-- 70_reset_and_hazards R148 (a), with a quiet host: from a self-jump on, nothing changes but the timers, the position
in the tick and the outputs, and the core goes on spinning. -/
def Obligations.SpinChangesOnlyTimers : Prop :=
  ∀ n s, s.Spinning → s.script = [] →
    ∃ t, run n s = .next t ∧ t.Spinning ∧ KeepsAllBut [.dt, .st, .slots, .out] s t

/-- 70_reset_and_hazards R136 and the property L1-6 of 95_test_vectors: pausing at a boundary, any number of ticks, and
unpausing leave every part of the state as it was, the host's script and the outputs apart. -/
def Obligations.PauseResumesWhereItLeftOff : Prop :=
  ∀ n s rest, s.slotsLeft = 0 → s.runState = .running →
    s.script = .command .togglePause :: (List.replicate n .pass ++ .command .togglePause :: rest) →
    ∃ t, run (n + 2) s = .next t ∧ t.script = rest ∧ KeepsAllBut [.script, .out] s t

/-- 60_exceptions R126, 10_state R30 (log 2, log 19): a keypad change lands between any two slots, and changes nothing
else; a command lands at a tick boundary, and inside a tick it waits while the slot runs. -/
def Obligations.HostMovesLandWhereTheyMay : Prop :=
  (∀ s keys rest, s.script = .keypad keys :: rest → ∃ t, step s = .next t ∧ t.keypad = keys ∧ t.script = rest ∧
    KeepsAllBut [.keypad, .script, .out] s t) ∧
  (∀ s c rest, s.script = .command c :: rest → s.slotsLeft = 0 →
    step s = .next (((s.setOut []).setScript rest).obey c)) ∧
  (∀ s c rest n, s.script = .command c :: rest → s.slotsLeft = n + 1 →
    step s = executeOne ((s.setOut []).setSlotsLeft n) ∧ ∀ t, step s = .next t → t.script = s.script)

/-- 10_state R30, R31, R32, R34: only the host changes the keypad, the control state and the configuration. -/
def Obligations.OnlyTheHostChangesItsState : Prop :=
  ∀ s t, step s = .next t →
    (t.keypad ≠ s.keypad → ∃ keys rest, s.script = .keypad keys :: rest ∧ t.keypad = keys) ∧
    (t.runState ≠ s.runState ∨ t.config ≠ s.config → ∃ c rest, s.script = .command c :: rest ∧ s.slotsLeft = 0)

/-! ### Reset and the commands -/

/-- 70_reset_and_hazards R131, R132, 10_state R37: the newly constructed block (the zeros of V, I, DT and ST are the
spec's decision D8). -/
def Obligations.ConstructedInResetState : Prop :=
  State.reset.ResetButMemory ∧ State.reset.runState = .stopped ∧ State.reset.slotsLeft = 0 ∧
  ∀ a, State.reset.memRead a = resetImage State.reset.config.font a

/-- 70_reset_and_hazards R135, R136 (the spec's decision D13 for the states in which they do nothing). -/
def Obligations.StartAndTogglePause : Prop :=
  (∀ s : State, KeepsAllBut [.runState] s (s.obey .start) ∧
    (s.obey .start).runState = if s.runState = .stopped then .running else s.runState) ∧
  (∀ s : State, KeepsAllBut [.runState] s (s.obey .togglePause) ∧
    (s.runState = .running → (s.obey .togglePause).runState = .paused) ∧
    (s.runState = .paused → (s.obey .togglePause).runState = .running) ∧
    (s.runState = .stopped → (s.obey .togglePause).runState = .stopped))

/-- 10_state R34, R38, 60_exceptions R126: the host changes the configuration and nothing else. THE MODEL'S CHOICE (log
11): a change that would leave the stack deeper than STACK_DEPTH is not made. THE MODEL'S READING (log 14, DEDUCED from
20_memory R43, by which FONT is written into memory at construction and reset): a change of FONT leaves memory alone. -/
def Obligations.ConfigurationChange : Prop :=
  ∀ (s : State) c, (StackFits c.stackDepth s → (s.obey (.configure c)).config = c ∧
      KeepsAllBut [.config] s (s.obey (.configure c))) ∧
    (¬ StackFits c.stackDepth s → s.obey (.configure c) = s)

/-- 70_reset_and_hazards R131, R137: STOP resets in every state; the keypad and the configuration are not touched, and
no event is emitted (the spec's decisions D8, D25). That the script and the random source are kept as well is THE
MODEL'S CHOICE (log 2, log 4). -/
def Obligations.StopResets : Prop :=
  ∀ s : State, (s.obey .stop).ResetButMemory ∧ (s.obey .stop).runState = .stopped ∧
    (∀ a, (s.obey .stop).memRead a = resetImage s.config.font a) ∧
    HostFieldsKept s (s.obey .stop) ∧ Keeps s (s.obey .stop) .out

/-- 70_reset_and_hazards R138: a ROM over 3584 bytes is refused whole; else LOAD_ROM resets first when Running or Paused,
copies to 0x200, and leaves the block Stopped (the spec's decisions D7, D14). That the reset keeps the script and the
random source is THE MODEL'S CHOICE (log 2, log 4). -/
def Obligations.LoadRom : Prop :=
  (∀ (s : State) b, b.length > 3584 →
    (s.obey (.loadRom b)).out = s.out ++ [.loadStatus .turnedAway] ∧ KeepsAllBut [.out] s (s.obey (.loadRom b))) ∧
  (∀ (s : State) b, b.length ≤ 3584 → s.mem.wf = true → s.runState = .stopped →
    (s.obey (.loadRom b)).out = s.out ++ [.loadStatus .ok] ∧
    (∀ a, (s.obey (.loadRom b)).memRead a = romOver b s.memRead a) ∧
    KeepsAllBut [.mem, .out] s (s.obey (.loadRom b))) ∧
  (∀ (s : State) b, b.length ≤ 3584 → s.runState ≠ .stopped →
    (s.obey (.loadRom b)).out = s.out ++ [.loadStatus .ok] ∧
    (∀ a, (s.obey (.loadRom b)).memRead a = romOver b (resetImage s.config.font) a) ∧
    (s.obey (.loadRom b)).ResetButMemory ∧ (s.obey (.loadRom b)).runState = .stopped ∧
    HostFieldsKept s (s.obey (.loadRom b)))

/-- 70_reset_and_hazards R141: STOP, LOAD_ROM, START give the same state whatever ran before, the keypad and the
configuration apart. -/
def Obligations.StopLoadStartIsReproducible : Prop :=
  ∀ (s : State) b t, b.length ≤ 3584 → t = ((s.obey .stop).obey (.loadRom b)).obey .start →
    t.ResetButMemory ∧ t.runState = .running ∧ t.slotsLeft = 0 ∧
    (∀ a, t.memRead a = romOver b (resetImage s.config.font) a) ∧ Keeps s t .keypad ∧ Keeps s t .config

/-! ### Invariants -/

/-- The invariant, the stack bound within it, holds in the newly constructed block. -/
def Obligations.InvariantHoldsAtReset : Prop := State.reset.Inv ∧ State.reset.WithinDepth

/-- 10_state R38, 60_exceptions R115, R116, R121, 70_reset_and_hazards R138: every step keeps the invariant. -/
def Obligations.EveryStepKeepsInvariant : Prop :=
  ∀ s t : State, s.Inv → step s = .next t → t.Inv

/-- 10_state R38: depth ≤ STACK_DEPTH is kept by every step, whatever the host does. -/
def Obligations.EveryStepKeepsTheStackBound : Prop :=
  ∀ s t : State, s.WithinDepth → step s = .next t → t.WithinDepth
end

