-- ==== Sys2Proof/Laws/Decode.lean ====
section
/-! SUPPORT. The laws of the decoder and the encoder: no word selects two rows, so a word that matches a row decodes
by it; and the fields of an encoded word. -/

namespace Sys2Proof

/-- Two rows that no word can match both: they ask for different values of a bit both of them fix. -/
abbrev Row.Apart (r q : Row) : Prop := (r.pattern ^^^ q.pattern) &&& (r.mask &&& q.mask) ≠ 0

/-- The rows of the opcode map do not overlap (spec 30_encoding R61: exactly one row matches). -/
theorem opcodeMap_apart : opcodeMap.Pairwise Row.Apart := by decide

/-- No word matches two rows that are apart. -/
theorem Row.Apart.not_both {r q : Row} (h : r.Apart q) {op : Word} (hr : op &&& r.mask = r.pattern)
    (hq : op &&& q.mask = q.pattern) : False := by
  apply h
  rw [← hr, ← hq]
  apply BitVec.eq_of_getLsbD_eq
  intro i hi
  rw [show (0 : BitVec 16).getLsbD i = false from BitVec.getLsbD_zero]
  simp only [BitVec.getLsbD_and, BitVec.getLsbD_xor]
  cases op.getLsbD i <;> cases r.mask.getLsbD i <;> cases q.mask.getLsbD i <;> rfl

theorem selectRow_of_mem {rows : List Row} (hp : rows.Pairwise Row.Apart) {r : Row} (hr : r ∈ rows) {op : Word}
    (h : op &&& r.mask = r.pattern) : selectRow op rows = some r := by
  induction rows with
  | nil => simp at hr
  | cons q rest ih =>
    obtain ⟨hq, hrest⟩ := List.pairwise_cons.1 hp
    rcases List.mem_cons.1 hr with rfl | hmem
    · simp [selectRow, h]
    · have : ¬ (op &&& q.mask = q.pattern) := fun e => (hq r hmem).not_both e h
      simp [selectRow, this, ih hrest hmem]

theorem selectRow_some {rows : List Row} {op : Word} {r : Row} (h : selectRow op rows = some r) :
    r ∈ rows ∧ op &&& r.mask = r.pattern := by
  induction rows with
  | nil => simp [selectRow] at h
  | cons q rest ih =>
    simp only [selectRow] at h
    split at h
    · cases h; exact ⟨List.mem_cons_self, ‹_›⟩
    · exact ⟨List.mem_cons_of_mem _ (ih h).1, (ih h).2⟩

theorem selectRow_none {rows : List Row} {op : Word} :
    selectRow op rows = none ↔ ∀ r ∈ rows, op &&& r.mask ≠ r.pattern := by
  induction rows with
  | nil => simp [selectRow]
  | cons q rest ih =>
    simp only [selectRow]
    split
    · simp [‹_›]
    · simp [‹_›, ih]

/-- A word that matches a row of the opcode map decodes to what the row builds. -/
theorem decode_of_row {r : Row} (hr : r ∈ opcodeMap) {op : Word} (h : op &&& r.mask = r.pattern) :
    decode op = .ok (r.build op) := by
  simp [decode, selectRow_of_mem opcodeMap_apart hr h]

/-- The same, by the row's number (0 to 33) in the map. -/
theorem decode_of_index (k : Fin opcodeMap.length) {op : Word}
    (h : op &&& (opcodeMap.get k).mask = (opcodeMap.get k).pattern) : decode op = .ok ((opcodeMap.get k).build op) :=
  decode_of_row (List.get_mem _ _) h

/-- Whatever decodes, decodes by a row it matches. -/
theorem decode_ok {op : Word} {i : Instr} (h : decode op = .ok i) :
    ∃ r ∈ opcodeMap, op &&& r.mask = r.pattern ∧ i = r.build op := by
  unfold decode at h
  split at h
  · cases h
    have := selectRow_some ‹_›
    exact ⟨_, this.1, this.2, rfl⟩
  · cases h

/-- UNDEFINED is exactly matching no row. -/
theorem decode_undefined_iff (op : Word) :
    decode op = .error (.undefinedWord op) ↔ ∀ r ∈ opcodeMap, op &&& r.mask ≠ r.pattern := by
  unfold decode
  split
  · constructor
    · intro h; cases h
    · intro h
      have := selectRow_some ‹_›
      exact absurd this.2 (h _ this.1)
  · simpa using selectRow_none.1 ‹_›

/-- A word decodes to an instruction or is UNDEFINED; nothing else. -/
theorem decode_total (op : Word) : (∃ i, decode op = .ok i) ∨ decode op = .error (.undefinedWord op) := by
  unfold decode
  split
  · exact .inl ⟨_, rfl⟩
  · exact .inr rfl

/-! ### A word and its nibbles -/

/-- A word from its four nibbles. -/
def ofNibbles (a b c d : Nibble) : Word := a ++ b ++ c ++ d

theorem getLsbD_ofNibbles (a b c d : Nibble) (i : Nat) :
    (ofNibbles a b c d).getLsbD i = if i < 4 then d.getLsbD i else if i < 8 then c.getLsbD (i - 4)
      else if i < 12 then b.getLsbD (i - 8) else a.getLsbD (i - 12) := by
  simp only [ofNibbles, BitVec.getLsbD_append, Nat.sub_sub]
  by_cases h4 : i < 4
  · simp [h4]
  · by_cases h8 : i < 8
    · simp [h4, h8, show i - 4 < 4 by omega]
    · by_cases h12 : i < 12
      · simp [h4, h8, h12, show ¬ i - 4 < 4 by omega, show i - 8 < 4 by omega]
      · simp [h4, h8, h12, show ¬ i - 4 < 4 by omega, show ¬ i - 8 < 4 by omega]

@[simp] theorem n1_ofNibbles (a b c d : Nibble) : n1 (ofNibbles a b c d) = a := by
  apply BitVec.eq_of_getLsbD_eq
  intro i hi
  simp only [n1, BitVec.getLsbD_extractLsb', getLsbD_ofNibbles]
  simp [hi, show ¬ 12 + i < 4 by omega, show ¬ 12 + i < 8 by omega]

@[simp] theorem n2_ofNibbles (a b c d : Nibble) : n2 (ofNibbles a b c d) = b := by
  apply BitVec.eq_of_getLsbD_eq
  intro i hi
  simp only [n2, BitVec.getLsbD_extractLsb', getLsbD_ofNibbles]
  simp [hi, show ¬ 8 + i < 4 by omega, show 8 + i < 12 by omega]

@[simp] theorem n3_ofNibbles (a b c d : Nibble) : n3 (ofNibbles a b c d) = c := by
  apply BitVec.eq_of_getLsbD_eq
  intro i hi
  simp only [n3, BitVec.getLsbD_extractLsb', getLsbD_ofNibbles]
  simp [hi, show 4 + i < 8 by omega]

@[simp] theorem n4_ofNibbles (a b c d : Nibble) : n4 (ofNibbles a b c d) = d := by
  apply BitVec.eq_of_getLsbD_eq
  intro i hi
  simp only [n4, BitVec.getLsbD_extractLsb', getLsbD_ofNibbles]
  simp [hi]

/-- Every word is the word of its nibbles. -/
theorem ofNibbles_eta (op : Word) : ofNibbles (n1 op) (n2 op) (n3 op) (n4 op) = op := by
  apply BitVec.eq_of_getLsbD_eq
  intro i hi
  simp only [getLsbD_ofNibbles, n1, n2, n3, n4, BitVec.getLsbD_extractLsb']
  split
  · simp [*]
  · split
    · simp [show i - 4 < 4 by omega, show 4 + (i - 4) = i by omega]
    · split
      · simp [show i - 8 < 4 by omega, show 8 + (i - 8) = i by omega]
      · simp [show i - 12 < 4 by omega, show 12 + (i - 12) = i by omega]

/-- Bitwise and of two words, nibble by nibble. -/
theorem ofNibbles_and (a b c d a' b' c' d' : Nibble) :
    ofNibbles a b c d &&& ofNibbles a' b' c' d' = ofNibbles (a &&& a') (b &&& b') (c &&& c') (d &&& d') := by
  apply BitVec.eq_of_getLsbD_eq
  intro i hi
  simp only [BitVec.getLsbD_and, getLsbD_ofNibbles]
  split
  · rfl
  · split
    · rfl
    · split <;> rfl

/-- A full mask keeps a nibble. -/
@[simp] theorem nibble_and_full (b : Nibble) : b &&& 0xF#4 = b := by revert b; decide

theorem ofNibbles_inj {a b c d a' b' c' d' : Nibble} :
    ofNibbles a b c d = ofNibbles a' b' c' d' ↔ a = a' ∧ b = b' ∧ c = c' ∧ d = d' := by
  constructor
  · intro h
    refine ⟨?_, ?_, ?_, ?_⟩
    · simpa using congrArg n1 h
    · simpa using congrArg n2 h
    · simpa using congrArg n3 h
    · simpa using congrArg n4 h
  · rintro ⟨rfl, rfl, rfl, rfl⟩; rfl

/-! ### The fields of an encoded word -/

@[simp] theorem regOf_nibbleOf (r : Reg) : regOf (nibbleOf r) = r := rfl

@[simp] theorem nibbleOf_regOf (b : Nibble) : nibbleOf (regOf b) = b := rfl

theorem formatR_eq (top : Nibble) (x y : Reg) (low : Nibble) :
    formatR top x y low = ofNibbles top (nibbleOf x) (nibbleOf y) low := rfl

/-- The high and low nibble of a byte. -/
theorem formatB_eq (top : Nibble) (x : Reg) (kk : Byte) :
    formatB top x kk = ofNibbles top (nibbleOf x) (kk.extractLsb' 4 4) (kk.extractLsb' 0 4) := by
  apply BitVec.eq_of_getLsbD_eq
  intro i hi
  simp only [formatB, getLsbD_ofNibbles, BitVec.getLsbD_append, BitVec.getLsbD_extractLsb']
  by_cases h4 : i < 4
  · simp [h4, show i < 8 by omega]
  · by_cases h8 : i < 8
    · simp [h4, h8, show i - 4 < 4 by omega, show 4 + (i - 4) = i by omega]
    · by_cases h12 : i < 12
      · simp [h4, h8, h12, show i - 8 < 4 by omega]
      · simp [h4, h8, h12, show ¬ i - 8 < 4 by omega, show i - 8 - 4 = i - 12 by omega]

theorem formatA_eq (top : Nibble) (nnn : Addr12) :
    formatA top nnn = ofNibbles top (nnn.extractLsb' 8 4) (nnn.extractLsb' 4 4) (nnn.extractLsb' 0 4) := by
  apply BitVec.eq_of_getLsbD_eq
  intro i hi
  simp only [formatA, getLsbD_ofNibbles, BitVec.getLsbD_append, BitVec.getLsbD_extractLsb']
  by_cases h4 : i < 4
  · simp [h4, show i < 12 by omega]
  · by_cases h8 : i < 8
    · simp [h4, h8, show i < 12 by omega, show i - 4 < 4 by omega, show 4 + (i - 4) = i by omega]
    · by_cases h12 : i < 12
      · simp [h4, h8, h12, show i - 8 < 4 by omega, show 8 + (i - 8) = i by omega]
      · simp [h4, h8, h12]

@[simp] theorem fieldKK_formatB (top : Nibble) (x : Reg) (kk : Byte) : fieldKK (formatB top x kk) = kk := by
  apply BitVec.eq_of_getLsbD_eq
  intro i hi
  simp only [fieldKK, formatB, BitVec.getLsbD_extractLsb', BitVec.getLsbD_append]
  simp [hi]

@[simp] theorem fieldX_formatB (top : Nibble) (x : Reg) (kk : Byte) : fieldX (formatB top x kk) = x := by
  simp [fieldX, formatB_eq]

@[simp] theorem fieldNNN_formatA (top : Nibble) (nnn : Addr12) : fieldNNN (formatA top nnn) = nnn := by
  apply BitVec.eq_of_getLsbD_eq
  intro i hi
  simp only [fieldNNN, formatA, BitVec.getLsbD_extractLsb', BitVec.getLsbD_append]
  simp [hi]

@[simp] theorem fieldX_formatR (top : Nibble) (x y : Reg) (low : Nibble) : fieldX (formatR top x y low) = x := by
  simp [fieldX, formatR_eq]

@[simp] theorem fieldY_formatR (top : Nibble) (x y : Reg) (low : Nibble) : fieldY (formatR top x y low) = y := by
  simp [fieldY, formatR_eq]

@[simp] theorem n4_formatR (top : Nibble) (x y : Reg) (low : Nibble) : n4 (formatR top x y low) = low := by
  simp [formatR_eq]

/-! ### Bytes and words -/

/-- The bytes of a word, put together, give it back. -/
@[simp] theorem wordOfBytes_bytesOfWord (op : Word) : wordOfBytes (op.extractLsb' 8 8) (op.extractLsb' 0 8) = op := by
  apply BitVec.eq_of_getLsbD_eq
  intro i hi
  simp only [wordOfBytes, BitVec.getLsbD_append, BitVec.getLsbD_extractLsb']
  by_cases h8 : i < 8
  · simp [h8]
  · simp [h8, show i - 8 < 8 by omega, show 8 + (i - 8) = i by omega]

theorem toNat_wordOfBytes (hi lo : Byte) : (wordOfBytes hi lo).toNat = hi.toNat * 256 + lo.toNat := by
  refine (BitVec.toNat_append hi lo).trans ?_
  rw [← Nat.shiftLeft_add_eq_or_of_lt lo.isLt, Nat.shiftLeft_eq]

/-- The nibbles of a word are those of its two bytes. -/
theorem wordOfBytes_eq (hi lo : Byte) :
    wordOfBytes hi lo = ofNibbles (hi.extractLsb' 4 4) (hi.extractLsb' 0 4) (lo.extractLsb' 4 4) (lo.extractLsb' 0 4) := by
  apply BitVec.eq_of_getLsbD_eq
  intro i hi
  simp only [wordOfBytes, getLsbD_ofNibbles, BitVec.getLsbD_append, BitVec.getLsbD_extractLsb']
  by_cases h4 : i < 4
  · simp [h4, show i < 8 by omega]
  · by_cases h8 : i < 8
    · simp [h4, h8, show i - 4 < 4 by omega, show 4 + (i - 4) = i by omega]
    · by_cases h12 : i < 12
      · simp [h4, h8, h12, show i - 8 < 4 by omega]
      · simp [h4, h8, h12, show i - 12 < 4 by omega, show 4 + (i - 12) = i - 8 by omega]

/-- The bytes of an instruction's word decode as the word does. -/
theorem decodeBytes_bytesOfWord (op : Word) (rest : List Byte) :
    decodeBytes (bytesOfWord op ++ rest) =
      match decode op with
      | .ok i => .ok (i, rest)
      | .error e => .error e := by
  cases h : decode op <;> simp [bytesOfWord, decodeBytes, h]

end Sys2Proof
end

