-- ==== Sys2Proof/Laws/State.lean ====
section
/-! SUPPORT. What each update does to each field of the state: one lemma per field per update. -/

namespace Sys2Proof.Machine

open Sys2Proof

/-! ### Registers -/

@[simp] theorem reg_setReg_self (s : State) (r : Reg) (x : Byte) : (s.setReg r x).reg r = x := by
  simp [State.reg, State.setReg]

@[simp] theorem reg_setReg_of_ne (s : State) {r q : Reg} (x : Byte) (h : q ≠ r) : (s.setReg r x).reg q = s.reg q := by
  have h' : r.val ≠ q.val := fun e => h (Fin.ext e.symm)
  simp [State.reg, State.setReg, h']

/-- Reading any register after a write to one. -/
theorem reg_setReg (s : State) (r q : Reg) (x : Byte) : (s.setReg r x).reg q = if q = r then x else s.reg q := by
  by_cases h : q = r
  · subst h; simp
  · simp [h]

theorem setReg_reg (s : State) (r : Reg) : s.setReg r (s.reg r) = s := by
  simp [State.reg, State.setReg]

@[simp] theorem reg_setIndex (s : State) (x : Word) (r : Reg) : (s.setIndex x).reg r = s.reg r := rfl
@[simp] theorem reg_setPc (s : State) (x : Word) (r : Reg) : (s.setPc x).reg r = s.reg r := rfl
@[simp] theorem reg_setStack (s : State) (x : List Word) (r : Reg) : (s.setStack x).reg r = s.reg r := rfl
@[simp] theorem reg_setDt (s : State) (x : Byte) (r : Reg) : (s.setDt x).reg r = s.reg r := rfl
@[simp] theorem reg_setSt (s : State) (x : Byte) (r : Reg) : (s.setSt x).reg r = s.reg r := rfl
@[simp] theorem reg_setFb (s : State) (x : Framebuffer) (r : Reg) : (s.setFb x).reg r = s.reg r := rfl
@[simp] theorem reg_setMem (s : State) (x : Memory) (r : Reg) : (s.setMem x).reg r = s.reg r := rfl
@[simp] theorem reg_setKeypad (s : State) (x : BitVec 16) (r : Reg) : (s.setKeypad x).reg r = s.reg r := rfl
@[simp] theorem reg_setRunState (s : State) (x : RunState) (r : Reg) : (s.setRunState x).reg r = s.reg r := rfl
@[simp] theorem reg_setFault (s : State) (x : FaultRegister) (r : Reg) : (s.setFault x).reg r = s.reg r := rfl
@[simp] theorem reg_setConfig (s : State) (x : Config) (r : Reg) : (s.setConfig x).reg r = s.reg r := rfl
@[simp] theorem reg_setSlotsLeft (s : State) (x : Nat) (r : Reg) : (s.setSlotsLeft x).reg r = s.reg r := rfl
@[simp] theorem reg_setScript (s : State) (x : List HostMove) (r : Reg) : (s.setScript x).reg r = s.reg r := rfl
@[simp] theorem reg_setRndIn (s : State) (x : List Byte) (r : Reg) : (s.setRndIn x).reg r = s.reg r := rfl
@[simp] theorem reg_setRndDrawn (s : State) (x : Nat) (r : Reg) : (s.setRndDrawn x).reg r = s.reg r := rfl
@[simp] theorem reg_setOut (s : State) (x : List Output) (r : Reg) : (s.setOut x).reg r = s.reg r := rfl

/-! ### Memory as it is read -/

@[simp] theorem memRead_setReg (s : State) (r : Reg) (x : Byte) (a : Nat) : (s.setReg r x).memRead a = s.memRead a := rfl
@[simp] theorem memRead_setIndex (s : State) (x : Word) (a : Nat) : (s.setIndex x).memRead a = s.memRead a := rfl
@[simp] theorem memRead_setPc (s : State) (x : Word) (a : Nat) : (s.setPc x).memRead a = s.memRead a := rfl
@[simp] theorem memRead_setStack (s : State) (x : List Word) (a : Nat) : (s.setStack x).memRead a = s.memRead a := rfl
@[simp] theorem memRead_setDt (s : State) (x : Byte) (a : Nat) : (s.setDt x).memRead a = s.memRead a := rfl
@[simp] theorem memRead_setSt (s : State) (x : Byte) (a : Nat) : (s.setSt x).memRead a = s.memRead a := rfl
@[simp] theorem memRead_setFb (s : State) (x : Framebuffer) (a : Nat) : (s.setFb x).memRead a = s.memRead a := rfl
@[simp] theorem memRead_setMem (s : State) (x : Memory) (a : Nat) : (s.setMem x).memRead a = x.read a := rfl
@[simp] theorem memRead_setKeypad (s : State) (x : BitVec 16) (a : Nat) : (s.setKeypad x).memRead a = s.memRead a := rfl
@[simp] theorem memRead_setRunState (s : State) (x : RunState) (a : Nat) : (s.setRunState x).memRead a = s.memRead a := rfl
@[simp] theorem memRead_setFault (s : State) (x : FaultRegister) (a : Nat) : (s.setFault x).memRead a = s.memRead a := rfl
@[simp] theorem memRead_setConfig (s : State) (x : Config) (a : Nat) : (s.setConfig x).memRead a = s.memRead a := rfl
@[simp] theorem memRead_setSlotsLeft (s : State) (x : Nat) (a : Nat) : (s.setSlotsLeft x).memRead a = s.memRead a := rfl
@[simp] theorem memRead_setScript (s : State) (x : List HostMove) (a : Nat) : (s.setScript x).memRead a = s.memRead a := rfl
@[simp] theorem memRead_setRndIn (s : State) (x : List Byte) (a : Nat) : (s.setRndIn x).memRead a = s.memRead a := rfl
@[simp] theorem memRead_setRndDrawn (s : State) (x : Nat) (a : Nat) : (s.setRndDrawn x).memRead a = s.memRead a := rfl
@[simp] theorem memRead_setOut (s : State) (x : List Output) (a : Nat) : (s.setOut x).memRead a = s.memRead a := rfl

/-! ### setReg -/

@[simp] theorem setReg_index (s : State) (r : Reg) (x : Byte) : (s.setReg r x).index = s.index := rfl
@[simp] theorem setReg_pc (s : State) (r : Reg) (x : Byte) : (s.setReg r x).pc = s.pc := rfl
@[simp] theorem setReg_stack (s : State) (r : Reg) (x : Byte) : (s.setReg r x).stack = s.stack := rfl
@[simp] theorem setReg_dt (s : State) (r : Reg) (x : Byte) : (s.setReg r x).dt = s.dt := rfl
@[simp] theorem setReg_st (s : State) (r : Reg) (x : Byte) : (s.setReg r x).st = s.st := rfl
@[simp] theorem setReg_fb (s : State) (r : Reg) (x : Byte) : (s.setReg r x).fb = s.fb := rfl
@[simp] theorem setReg_mem (s : State) (r : Reg) (x : Byte) : (s.setReg r x).mem = s.mem := rfl
@[simp] theorem setReg_keypad (s : State) (r : Reg) (x : Byte) : (s.setReg r x).keypad = s.keypad := rfl
@[simp] theorem setReg_runState (s : State) (r : Reg) (x : Byte) : (s.setReg r x).runState = s.runState := rfl
@[simp] theorem setReg_fault (s : State) (r : Reg) (x : Byte) : (s.setReg r x).fault = s.fault := rfl
@[simp] theorem setReg_config (s : State) (r : Reg) (x : Byte) : (s.setReg r x).config = s.config := rfl
@[simp] theorem setReg_slotsLeft (s : State) (r : Reg) (x : Byte) : (s.setReg r x).slotsLeft = s.slotsLeft := rfl
@[simp] theorem setReg_script (s : State) (r : Reg) (x : Byte) : (s.setReg r x).script = s.script := rfl
@[simp] theorem setReg_rndIn (s : State) (r : Reg) (x : Byte) : (s.setReg r x).rndIn = s.rndIn := rfl
@[simp] theorem setReg_rndDrawn (s : State) (r : Reg) (x : Byte) : (s.setReg r x).rndDrawn = s.rndDrawn := rfl
@[simp] theorem setReg_out (s : State) (r : Reg) (x : Byte) : (s.setReg r x).out = s.out := rfl

/-! ### setIndex -/

@[simp] theorem setIndex_v (s : State) (x : Word) : (s.setIndex x).v = s.v := rfl
@[simp] theorem setIndex_index (s : State) (x : Word) : (s.setIndex x).index = x := rfl
@[simp] theorem setIndex_pc (s : State) (x : Word) : (s.setIndex x).pc = s.pc := rfl
@[simp] theorem setIndex_stack (s : State) (x : Word) : (s.setIndex x).stack = s.stack := rfl
@[simp] theorem setIndex_dt (s : State) (x : Word) : (s.setIndex x).dt = s.dt := rfl
@[simp] theorem setIndex_st (s : State) (x : Word) : (s.setIndex x).st = s.st := rfl
@[simp] theorem setIndex_fb (s : State) (x : Word) : (s.setIndex x).fb = s.fb := rfl
@[simp] theorem setIndex_mem (s : State) (x : Word) : (s.setIndex x).mem = s.mem := rfl
@[simp] theorem setIndex_keypad (s : State) (x : Word) : (s.setIndex x).keypad = s.keypad := rfl
@[simp] theorem setIndex_runState (s : State) (x : Word) : (s.setIndex x).runState = s.runState := rfl
@[simp] theorem setIndex_fault (s : State) (x : Word) : (s.setIndex x).fault = s.fault := rfl
@[simp] theorem setIndex_config (s : State) (x : Word) : (s.setIndex x).config = s.config := rfl
@[simp] theorem setIndex_slotsLeft (s : State) (x : Word) : (s.setIndex x).slotsLeft = s.slotsLeft := rfl
@[simp] theorem setIndex_script (s : State) (x : Word) : (s.setIndex x).script = s.script := rfl
@[simp] theorem setIndex_rndIn (s : State) (x : Word) : (s.setIndex x).rndIn = s.rndIn := rfl
@[simp] theorem setIndex_rndDrawn (s : State) (x : Word) : (s.setIndex x).rndDrawn = s.rndDrawn := rfl
@[simp] theorem setIndex_out (s : State) (x : Word) : (s.setIndex x).out = s.out := rfl
@[simp] theorem setIndex_self (s : State) : s.setIndex s.index = s := rfl

/-! ### setPc -/

@[simp] theorem setPc_v (s : State) (x : Word) : (s.setPc x).v = s.v := rfl
@[simp] theorem setPc_index (s : State) (x : Word) : (s.setPc x).index = s.index := rfl
@[simp] theorem setPc_pc (s : State) (x : Word) : (s.setPc x).pc = x := rfl
@[simp] theorem setPc_stack (s : State) (x : Word) : (s.setPc x).stack = s.stack := rfl
@[simp] theorem setPc_dt (s : State) (x : Word) : (s.setPc x).dt = s.dt := rfl
@[simp] theorem setPc_st (s : State) (x : Word) : (s.setPc x).st = s.st := rfl
@[simp] theorem setPc_fb (s : State) (x : Word) : (s.setPc x).fb = s.fb := rfl
@[simp] theorem setPc_mem (s : State) (x : Word) : (s.setPc x).mem = s.mem := rfl
@[simp] theorem setPc_keypad (s : State) (x : Word) : (s.setPc x).keypad = s.keypad := rfl
@[simp] theorem setPc_runState (s : State) (x : Word) : (s.setPc x).runState = s.runState := rfl
@[simp] theorem setPc_fault (s : State) (x : Word) : (s.setPc x).fault = s.fault := rfl
@[simp] theorem setPc_config (s : State) (x : Word) : (s.setPc x).config = s.config := rfl
@[simp] theorem setPc_slotsLeft (s : State) (x : Word) : (s.setPc x).slotsLeft = s.slotsLeft := rfl
@[simp] theorem setPc_script (s : State) (x : Word) : (s.setPc x).script = s.script := rfl
@[simp] theorem setPc_rndIn (s : State) (x : Word) : (s.setPc x).rndIn = s.rndIn := rfl
@[simp] theorem setPc_rndDrawn (s : State) (x : Word) : (s.setPc x).rndDrawn = s.rndDrawn := rfl
@[simp] theorem setPc_out (s : State) (x : Word) : (s.setPc x).out = s.out := rfl
@[simp] theorem setPc_self (s : State) : s.setPc s.pc = s := rfl

/-! ### setStack -/

@[simp] theorem setStack_v (s : State) (x : List Word) : (s.setStack x).v = s.v := rfl
@[simp] theorem setStack_index (s : State) (x : List Word) : (s.setStack x).index = s.index := rfl
@[simp] theorem setStack_pc (s : State) (x : List Word) : (s.setStack x).pc = s.pc := rfl
@[simp] theorem setStack_stack (s : State) (x : List Word) : (s.setStack x).stack = x := rfl
@[simp] theorem setStack_dt (s : State) (x : List Word) : (s.setStack x).dt = s.dt := rfl
@[simp] theorem setStack_st (s : State) (x : List Word) : (s.setStack x).st = s.st := rfl
@[simp] theorem setStack_fb (s : State) (x : List Word) : (s.setStack x).fb = s.fb := rfl
@[simp] theorem setStack_mem (s : State) (x : List Word) : (s.setStack x).mem = s.mem := rfl
@[simp] theorem setStack_keypad (s : State) (x : List Word) : (s.setStack x).keypad = s.keypad := rfl
@[simp] theorem setStack_runState (s : State) (x : List Word) : (s.setStack x).runState = s.runState := rfl
@[simp] theorem setStack_fault (s : State) (x : List Word) : (s.setStack x).fault = s.fault := rfl
@[simp] theorem setStack_config (s : State) (x : List Word) : (s.setStack x).config = s.config := rfl
@[simp] theorem setStack_slotsLeft (s : State) (x : List Word) : (s.setStack x).slotsLeft = s.slotsLeft := rfl
@[simp] theorem setStack_script (s : State) (x : List Word) : (s.setStack x).script = s.script := rfl
@[simp] theorem setStack_rndIn (s : State) (x : List Word) : (s.setStack x).rndIn = s.rndIn := rfl
@[simp] theorem setStack_rndDrawn (s : State) (x : List Word) : (s.setStack x).rndDrawn = s.rndDrawn := rfl
@[simp] theorem setStack_out (s : State) (x : List Word) : (s.setStack x).out = s.out := rfl
@[simp] theorem setStack_self (s : State) : s.setStack s.stack = s := rfl

/-! ### setDt -/

@[simp] theorem setDt_v (s : State) (x : Byte) : (s.setDt x).v = s.v := rfl
@[simp] theorem setDt_index (s : State) (x : Byte) : (s.setDt x).index = s.index := rfl
@[simp] theorem setDt_pc (s : State) (x : Byte) : (s.setDt x).pc = s.pc := rfl
@[simp] theorem setDt_stack (s : State) (x : Byte) : (s.setDt x).stack = s.stack := rfl
@[simp] theorem setDt_dt (s : State) (x : Byte) : (s.setDt x).dt = x := rfl
@[simp] theorem setDt_st (s : State) (x : Byte) : (s.setDt x).st = s.st := rfl
@[simp] theorem setDt_fb (s : State) (x : Byte) : (s.setDt x).fb = s.fb := rfl
@[simp] theorem setDt_mem (s : State) (x : Byte) : (s.setDt x).mem = s.mem := rfl
@[simp] theorem setDt_keypad (s : State) (x : Byte) : (s.setDt x).keypad = s.keypad := rfl
@[simp] theorem setDt_runState (s : State) (x : Byte) : (s.setDt x).runState = s.runState := rfl
@[simp] theorem setDt_fault (s : State) (x : Byte) : (s.setDt x).fault = s.fault := rfl
@[simp] theorem setDt_config (s : State) (x : Byte) : (s.setDt x).config = s.config := rfl
@[simp] theorem setDt_slotsLeft (s : State) (x : Byte) : (s.setDt x).slotsLeft = s.slotsLeft := rfl
@[simp] theorem setDt_script (s : State) (x : Byte) : (s.setDt x).script = s.script := rfl
@[simp] theorem setDt_rndIn (s : State) (x : Byte) : (s.setDt x).rndIn = s.rndIn := rfl
@[simp] theorem setDt_rndDrawn (s : State) (x : Byte) : (s.setDt x).rndDrawn = s.rndDrawn := rfl
@[simp] theorem setDt_out (s : State) (x : Byte) : (s.setDt x).out = s.out := rfl
@[simp] theorem setDt_self (s : State) : s.setDt s.dt = s := rfl

/-! ### setSt -/

@[simp] theorem setSt_v (s : State) (x : Byte) : (s.setSt x).v = s.v := rfl
@[simp] theorem setSt_index (s : State) (x : Byte) : (s.setSt x).index = s.index := rfl
@[simp] theorem setSt_pc (s : State) (x : Byte) : (s.setSt x).pc = s.pc := rfl
@[simp] theorem setSt_stack (s : State) (x : Byte) : (s.setSt x).stack = s.stack := rfl
@[simp] theorem setSt_dt (s : State) (x : Byte) : (s.setSt x).dt = s.dt := rfl
@[simp] theorem setSt_st (s : State) (x : Byte) : (s.setSt x).st = x := rfl
@[simp] theorem setSt_fb (s : State) (x : Byte) : (s.setSt x).fb = s.fb := rfl
@[simp] theorem setSt_mem (s : State) (x : Byte) : (s.setSt x).mem = s.mem := rfl
@[simp] theorem setSt_keypad (s : State) (x : Byte) : (s.setSt x).keypad = s.keypad := rfl
@[simp] theorem setSt_runState (s : State) (x : Byte) : (s.setSt x).runState = s.runState := rfl
@[simp] theorem setSt_fault (s : State) (x : Byte) : (s.setSt x).fault = s.fault := rfl
@[simp] theorem setSt_config (s : State) (x : Byte) : (s.setSt x).config = s.config := rfl
@[simp] theorem setSt_slotsLeft (s : State) (x : Byte) : (s.setSt x).slotsLeft = s.slotsLeft := rfl
@[simp] theorem setSt_script (s : State) (x : Byte) : (s.setSt x).script = s.script := rfl
@[simp] theorem setSt_rndIn (s : State) (x : Byte) : (s.setSt x).rndIn = s.rndIn := rfl
@[simp] theorem setSt_rndDrawn (s : State) (x : Byte) : (s.setSt x).rndDrawn = s.rndDrawn := rfl
@[simp] theorem setSt_out (s : State) (x : Byte) : (s.setSt x).out = s.out := rfl
@[simp] theorem setSt_self (s : State) : s.setSt s.st = s := rfl

/-! ### setFb -/

@[simp] theorem setFb_v (s : State) (x : Framebuffer) : (s.setFb x).v = s.v := rfl
@[simp] theorem setFb_index (s : State) (x : Framebuffer) : (s.setFb x).index = s.index := rfl
@[simp] theorem setFb_pc (s : State) (x : Framebuffer) : (s.setFb x).pc = s.pc := rfl
@[simp] theorem setFb_stack (s : State) (x : Framebuffer) : (s.setFb x).stack = s.stack := rfl
@[simp] theorem setFb_dt (s : State) (x : Framebuffer) : (s.setFb x).dt = s.dt := rfl
@[simp] theorem setFb_st (s : State) (x : Framebuffer) : (s.setFb x).st = s.st := rfl
@[simp] theorem setFb_fb (s : State) (x : Framebuffer) : (s.setFb x).fb = x := rfl
@[simp] theorem setFb_mem (s : State) (x : Framebuffer) : (s.setFb x).mem = s.mem := rfl
@[simp] theorem setFb_keypad (s : State) (x : Framebuffer) : (s.setFb x).keypad = s.keypad := rfl
@[simp] theorem setFb_runState (s : State) (x : Framebuffer) : (s.setFb x).runState = s.runState := rfl
@[simp] theorem setFb_fault (s : State) (x : Framebuffer) : (s.setFb x).fault = s.fault := rfl
@[simp] theorem setFb_config (s : State) (x : Framebuffer) : (s.setFb x).config = s.config := rfl
@[simp] theorem setFb_slotsLeft (s : State) (x : Framebuffer) : (s.setFb x).slotsLeft = s.slotsLeft := rfl
@[simp] theorem setFb_script (s : State) (x : Framebuffer) : (s.setFb x).script = s.script := rfl
@[simp] theorem setFb_rndIn (s : State) (x : Framebuffer) : (s.setFb x).rndIn = s.rndIn := rfl
@[simp] theorem setFb_rndDrawn (s : State) (x : Framebuffer) : (s.setFb x).rndDrawn = s.rndDrawn := rfl
@[simp] theorem setFb_out (s : State) (x : Framebuffer) : (s.setFb x).out = s.out := rfl
@[simp] theorem setFb_self (s : State) : s.setFb s.fb = s := rfl

/-! ### setMem -/

@[simp] theorem setMem_v (s : State) (x : Memory) : (s.setMem x).v = s.v := rfl
@[simp] theorem setMem_index (s : State) (x : Memory) : (s.setMem x).index = s.index := rfl
@[simp] theorem setMem_pc (s : State) (x : Memory) : (s.setMem x).pc = s.pc := rfl
@[simp] theorem setMem_stack (s : State) (x : Memory) : (s.setMem x).stack = s.stack := rfl
@[simp] theorem setMem_dt (s : State) (x : Memory) : (s.setMem x).dt = s.dt := rfl
@[simp] theorem setMem_st (s : State) (x : Memory) : (s.setMem x).st = s.st := rfl
@[simp] theorem setMem_fb (s : State) (x : Memory) : (s.setMem x).fb = s.fb := rfl
@[simp] theorem setMem_mem (s : State) (x : Memory) : (s.setMem x).mem = x := rfl
@[simp] theorem setMem_keypad (s : State) (x : Memory) : (s.setMem x).keypad = s.keypad := rfl
@[simp] theorem setMem_runState (s : State) (x : Memory) : (s.setMem x).runState = s.runState := rfl
@[simp] theorem setMem_fault (s : State) (x : Memory) : (s.setMem x).fault = s.fault := rfl
@[simp] theorem setMem_config (s : State) (x : Memory) : (s.setMem x).config = s.config := rfl
@[simp] theorem setMem_slotsLeft (s : State) (x : Memory) : (s.setMem x).slotsLeft = s.slotsLeft := rfl
@[simp] theorem setMem_script (s : State) (x : Memory) : (s.setMem x).script = s.script := rfl
@[simp] theorem setMem_rndIn (s : State) (x : Memory) : (s.setMem x).rndIn = s.rndIn := rfl
@[simp] theorem setMem_rndDrawn (s : State) (x : Memory) : (s.setMem x).rndDrawn = s.rndDrawn := rfl
@[simp] theorem setMem_out (s : State) (x : Memory) : (s.setMem x).out = s.out := rfl
@[simp] theorem setMem_self (s : State) : s.setMem s.mem = s := rfl

/-! ### setKeypad -/

@[simp] theorem setKeypad_v (s : State) (x : BitVec 16) : (s.setKeypad x).v = s.v := rfl
@[simp] theorem setKeypad_index (s : State) (x : BitVec 16) : (s.setKeypad x).index = s.index := rfl
@[simp] theorem setKeypad_pc (s : State) (x : BitVec 16) : (s.setKeypad x).pc = s.pc := rfl
@[simp] theorem setKeypad_stack (s : State) (x : BitVec 16) : (s.setKeypad x).stack = s.stack := rfl
@[simp] theorem setKeypad_dt (s : State) (x : BitVec 16) : (s.setKeypad x).dt = s.dt := rfl
@[simp] theorem setKeypad_st (s : State) (x : BitVec 16) : (s.setKeypad x).st = s.st := rfl
@[simp] theorem setKeypad_fb (s : State) (x : BitVec 16) : (s.setKeypad x).fb = s.fb := rfl
@[simp] theorem setKeypad_mem (s : State) (x : BitVec 16) : (s.setKeypad x).mem = s.mem := rfl
@[simp] theorem setKeypad_keypad (s : State) (x : BitVec 16) : (s.setKeypad x).keypad = x := rfl
@[simp] theorem setKeypad_runState (s : State) (x : BitVec 16) : (s.setKeypad x).runState = s.runState := rfl
@[simp] theorem setKeypad_fault (s : State) (x : BitVec 16) : (s.setKeypad x).fault = s.fault := rfl
@[simp] theorem setKeypad_config (s : State) (x : BitVec 16) : (s.setKeypad x).config = s.config := rfl
@[simp] theorem setKeypad_slotsLeft (s : State) (x : BitVec 16) : (s.setKeypad x).slotsLeft = s.slotsLeft := rfl
@[simp] theorem setKeypad_script (s : State) (x : BitVec 16) : (s.setKeypad x).script = s.script := rfl
@[simp] theorem setKeypad_rndIn (s : State) (x : BitVec 16) : (s.setKeypad x).rndIn = s.rndIn := rfl
@[simp] theorem setKeypad_rndDrawn (s : State) (x : BitVec 16) : (s.setKeypad x).rndDrawn = s.rndDrawn := rfl
@[simp] theorem setKeypad_out (s : State) (x : BitVec 16) : (s.setKeypad x).out = s.out := rfl
@[simp] theorem setKeypad_self (s : State) : s.setKeypad s.keypad = s := rfl

/-! ### setRunState -/

@[simp] theorem setRunState_v (s : State) (x : RunState) : (s.setRunState x).v = s.v := rfl
@[simp] theorem setRunState_index (s : State) (x : RunState) : (s.setRunState x).index = s.index := rfl
@[simp] theorem setRunState_pc (s : State) (x : RunState) : (s.setRunState x).pc = s.pc := rfl
@[simp] theorem setRunState_stack (s : State) (x : RunState) : (s.setRunState x).stack = s.stack := rfl
@[simp] theorem setRunState_dt (s : State) (x : RunState) : (s.setRunState x).dt = s.dt := rfl
@[simp] theorem setRunState_st (s : State) (x : RunState) : (s.setRunState x).st = s.st := rfl
@[simp] theorem setRunState_fb (s : State) (x : RunState) : (s.setRunState x).fb = s.fb := rfl
@[simp] theorem setRunState_mem (s : State) (x : RunState) : (s.setRunState x).mem = s.mem := rfl
@[simp] theorem setRunState_keypad (s : State) (x : RunState) : (s.setRunState x).keypad = s.keypad := rfl
@[simp] theorem setRunState_runState (s : State) (x : RunState) : (s.setRunState x).runState = x := rfl
@[simp] theorem setRunState_fault (s : State) (x : RunState) : (s.setRunState x).fault = s.fault := rfl
@[simp] theorem setRunState_config (s : State) (x : RunState) : (s.setRunState x).config = s.config := rfl
@[simp] theorem setRunState_slotsLeft (s : State) (x : RunState) : (s.setRunState x).slotsLeft = s.slotsLeft := rfl
@[simp] theorem setRunState_script (s : State) (x : RunState) : (s.setRunState x).script = s.script := rfl
@[simp] theorem setRunState_rndIn (s : State) (x : RunState) : (s.setRunState x).rndIn = s.rndIn := rfl
@[simp] theorem setRunState_rndDrawn (s : State) (x : RunState) : (s.setRunState x).rndDrawn = s.rndDrawn := rfl
@[simp] theorem setRunState_out (s : State) (x : RunState) : (s.setRunState x).out = s.out := rfl
@[simp] theorem setRunState_self (s : State) : s.setRunState s.runState = s := rfl

/-! ### setFault -/

@[simp] theorem setFault_v (s : State) (x : FaultRegister) : (s.setFault x).v = s.v := rfl
@[simp] theorem setFault_index (s : State) (x : FaultRegister) : (s.setFault x).index = s.index := rfl
@[simp] theorem setFault_pc (s : State) (x : FaultRegister) : (s.setFault x).pc = s.pc := rfl
@[simp] theorem setFault_stack (s : State) (x : FaultRegister) : (s.setFault x).stack = s.stack := rfl
@[simp] theorem setFault_dt (s : State) (x : FaultRegister) : (s.setFault x).dt = s.dt := rfl
@[simp] theorem setFault_st (s : State) (x : FaultRegister) : (s.setFault x).st = s.st := rfl
@[simp] theorem setFault_fb (s : State) (x : FaultRegister) : (s.setFault x).fb = s.fb := rfl
@[simp] theorem setFault_mem (s : State) (x : FaultRegister) : (s.setFault x).mem = s.mem := rfl
@[simp] theorem setFault_keypad (s : State) (x : FaultRegister) : (s.setFault x).keypad = s.keypad := rfl
@[simp] theorem setFault_runState (s : State) (x : FaultRegister) : (s.setFault x).runState = s.runState := rfl
@[simp] theorem setFault_fault (s : State) (x : FaultRegister) : (s.setFault x).fault = x := rfl
@[simp] theorem setFault_config (s : State) (x : FaultRegister) : (s.setFault x).config = s.config := rfl
@[simp] theorem setFault_slotsLeft (s : State) (x : FaultRegister) : (s.setFault x).slotsLeft = s.slotsLeft := rfl
@[simp] theorem setFault_script (s : State) (x : FaultRegister) : (s.setFault x).script = s.script := rfl
@[simp] theorem setFault_rndIn (s : State) (x : FaultRegister) : (s.setFault x).rndIn = s.rndIn := rfl
@[simp] theorem setFault_rndDrawn (s : State) (x : FaultRegister) : (s.setFault x).rndDrawn = s.rndDrawn := rfl
@[simp] theorem setFault_out (s : State) (x : FaultRegister) : (s.setFault x).out = s.out := rfl
@[simp] theorem setFault_self (s : State) : s.setFault s.fault = s := rfl

/-! ### setConfig -/

@[simp] theorem setConfig_v (s : State) (x : Config) : (s.setConfig x).v = s.v := rfl
@[simp] theorem setConfig_index (s : State) (x : Config) : (s.setConfig x).index = s.index := rfl
@[simp] theorem setConfig_pc (s : State) (x : Config) : (s.setConfig x).pc = s.pc := rfl
@[simp] theorem setConfig_stack (s : State) (x : Config) : (s.setConfig x).stack = s.stack := rfl
@[simp] theorem setConfig_dt (s : State) (x : Config) : (s.setConfig x).dt = s.dt := rfl
@[simp] theorem setConfig_st (s : State) (x : Config) : (s.setConfig x).st = s.st := rfl
@[simp] theorem setConfig_fb (s : State) (x : Config) : (s.setConfig x).fb = s.fb := rfl
@[simp] theorem setConfig_mem (s : State) (x : Config) : (s.setConfig x).mem = s.mem := rfl
@[simp] theorem setConfig_keypad (s : State) (x : Config) : (s.setConfig x).keypad = s.keypad := rfl
@[simp] theorem setConfig_runState (s : State) (x : Config) : (s.setConfig x).runState = s.runState := rfl
@[simp] theorem setConfig_fault (s : State) (x : Config) : (s.setConfig x).fault = s.fault := rfl
@[simp] theorem setConfig_config (s : State) (x : Config) : (s.setConfig x).config = x := rfl
@[simp] theorem setConfig_slotsLeft (s : State) (x : Config) : (s.setConfig x).slotsLeft = s.slotsLeft := rfl
@[simp] theorem setConfig_script (s : State) (x : Config) : (s.setConfig x).script = s.script := rfl
@[simp] theorem setConfig_rndIn (s : State) (x : Config) : (s.setConfig x).rndIn = s.rndIn := rfl
@[simp] theorem setConfig_rndDrawn (s : State) (x : Config) : (s.setConfig x).rndDrawn = s.rndDrawn := rfl
@[simp] theorem setConfig_out (s : State) (x : Config) : (s.setConfig x).out = s.out := rfl
@[simp] theorem setConfig_self (s : State) : s.setConfig s.config = s := rfl

/-! ### setSlotsLeft -/

@[simp] theorem setSlotsLeft_v (s : State) (x : Nat) : (s.setSlotsLeft x).v = s.v := rfl
@[simp] theorem setSlotsLeft_index (s : State) (x : Nat) : (s.setSlotsLeft x).index = s.index := rfl
@[simp] theorem setSlotsLeft_pc (s : State) (x : Nat) : (s.setSlotsLeft x).pc = s.pc := rfl
@[simp] theorem setSlotsLeft_stack (s : State) (x : Nat) : (s.setSlotsLeft x).stack = s.stack := rfl
@[simp] theorem setSlotsLeft_dt (s : State) (x : Nat) : (s.setSlotsLeft x).dt = s.dt := rfl
@[simp] theorem setSlotsLeft_st (s : State) (x : Nat) : (s.setSlotsLeft x).st = s.st := rfl
@[simp] theorem setSlotsLeft_fb (s : State) (x : Nat) : (s.setSlotsLeft x).fb = s.fb := rfl
@[simp] theorem setSlotsLeft_mem (s : State) (x : Nat) : (s.setSlotsLeft x).mem = s.mem := rfl
@[simp] theorem setSlotsLeft_keypad (s : State) (x : Nat) : (s.setSlotsLeft x).keypad = s.keypad := rfl
@[simp] theorem setSlotsLeft_runState (s : State) (x : Nat) : (s.setSlotsLeft x).runState = s.runState := rfl
@[simp] theorem setSlotsLeft_fault (s : State) (x : Nat) : (s.setSlotsLeft x).fault = s.fault := rfl
@[simp] theorem setSlotsLeft_config (s : State) (x : Nat) : (s.setSlotsLeft x).config = s.config := rfl
@[simp] theorem setSlotsLeft_slotsLeft (s : State) (x : Nat) : (s.setSlotsLeft x).slotsLeft = x := rfl
@[simp] theorem setSlotsLeft_script (s : State) (x : Nat) : (s.setSlotsLeft x).script = s.script := rfl
@[simp] theorem setSlotsLeft_rndIn (s : State) (x : Nat) : (s.setSlotsLeft x).rndIn = s.rndIn := rfl
@[simp] theorem setSlotsLeft_rndDrawn (s : State) (x : Nat) : (s.setSlotsLeft x).rndDrawn = s.rndDrawn := rfl
@[simp] theorem setSlotsLeft_out (s : State) (x : Nat) : (s.setSlotsLeft x).out = s.out := rfl
@[simp] theorem setSlotsLeft_self (s : State) : s.setSlotsLeft s.slotsLeft = s := rfl

/-! ### setScript -/

@[simp] theorem setScript_v (s : State) (x : List HostMove) : (s.setScript x).v = s.v := rfl
@[simp] theorem setScript_index (s : State) (x : List HostMove) : (s.setScript x).index = s.index := rfl
@[simp] theorem setScript_pc (s : State) (x : List HostMove) : (s.setScript x).pc = s.pc := rfl
@[simp] theorem setScript_stack (s : State) (x : List HostMove) : (s.setScript x).stack = s.stack := rfl
@[simp] theorem setScript_dt (s : State) (x : List HostMove) : (s.setScript x).dt = s.dt := rfl
@[simp] theorem setScript_st (s : State) (x : List HostMove) : (s.setScript x).st = s.st := rfl
@[simp] theorem setScript_fb (s : State) (x : List HostMove) : (s.setScript x).fb = s.fb := rfl
@[simp] theorem setScript_mem (s : State) (x : List HostMove) : (s.setScript x).mem = s.mem := rfl
@[simp] theorem setScript_keypad (s : State) (x : List HostMove) : (s.setScript x).keypad = s.keypad := rfl
@[simp] theorem setScript_runState (s : State) (x : List HostMove) : (s.setScript x).runState = s.runState := rfl
@[simp] theorem setScript_fault (s : State) (x : List HostMove) : (s.setScript x).fault = s.fault := rfl
@[simp] theorem setScript_config (s : State) (x : List HostMove) : (s.setScript x).config = s.config := rfl
@[simp] theorem setScript_slotsLeft (s : State) (x : List HostMove) : (s.setScript x).slotsLeft = s.slotsLeft := rfl
@[simp] theorem setScript_script (s : State) (x : List HostMove) : (s.setScript x).script = x := rfl
@[simp] theorem setScript_rndIn (s : State) (x : List HostMove) : (s.setScript x).rndIn = s.rndIn := rfl
@[simp] theorem setScript_rndDrawn (s : State) (x : List HostMove) : (s.setScript x).rndDrawn = s.rndDrawn := rfl
@[simp] theorem setScript_out (s : State) (x : List HostMove) : (s.setScript x).out = s.out := rfl
@[simp] theorem setScript_self (s : State) : s.setScript s.script = s := rfl

/-! ### setRndIn -/

@[simp] theorem setRndIn_v (s : State) (x : List Byte) : (s.setRndIn x).v = s.v := rfl
@[simp] theorem setRndIn_index (s : State) (x : List Byte) : (s.setRndIn x).index = s.index := rfl
@[simp] theorem setRndIn_pc (s : State) (x : List Byte) : (s.setRndIn x).pc = s.pc := rfl
@[simp] theorem setRndIn_stack (s : State) (x : List Byte) : (s.setRndIn x).stack = s.stack := rfl
@[simp] theorem setRndIn_dt (s : State) (x : List Byte) : (s.setRndIn x).dt = s.dt := rfl
@[simp] theorem setRndIn_st (s : State) (x : List Byte) : (s.setRndIn x).st = s.st := rfl
@[simp] theorem setRndIn_fb (s : State) (x : List Byte) : (s.setRndIn x).fb = s.fb := rfl
@[simp] theorem setRndIn_mem (s : State) (x : List Byte) : (s.setRndIn x).mem = s.mem := rfl
@[simp] theorem setRndIn_keypad (s : State) (x : List Byte) : (s.setRndIn x).keypad = s.keypad := rfl
@[simp] theorem setRndIn_runState (s : State) (x : List Byte) : (s.setRndIn x).runState = s.runState := rfl
@[simp] theorem setRndIn_fault (s : State) (x : List Byte) : (s.setRndIn x).fault = s.fault := rfl
@[simp] theorem setRndIn_config (s : State) (x : List Byte) : (s.setRndIn x).config = s.config := rfl
@[simp] theorem setRndIn_slotsLeft (s : State) (x : List Byte) : (s.setRndIn x).slotsLeft = s.slotsLeft := rfl
@[simp] theorem setRndIn_script (s : State) (x : List Byte) : (s.setRndIn x).script = s.script := rfl
@[simp] theorem setRndIn_rndIn (s : State) (x : List Byte) : (s.setRndIn x).rndIn = x := rfl
@[simp] theorem setRndIn_rndDrawn (s : State) (x : List Byte) : (s.setRndIn x).rndDrawn = s.rndDrawn := rfl
@[simp] theorem setRndIn_out (s : State) (x : List Byte) : (s.setRndIn x).out = s.out := rfl
@[simp] theorem setRndIn_self (s : State) : s.setRndIn s.rndIn = s := rfl

/-! ### setRndDrawn -/

@[simp] theorem setRndDrawn_v (s : State) (x : Nat) : (s.setRndDrawn x).v = s.v := rfl
@[simp] theorem setRndDrawn_index (s : State) (x : Nat) : (s.setRndDrawn x).index = s.index := rfl
@[simp] theorem setRndDrawn_pc (s : State) (x : Nat) : (s.setRndDrawn x).pc = s.pc := rfl
@[simp] theorem setRndDrawn_stack (s : State) (x : Nat) : (s.setRndDrawn x).stack = s.stack := rfl
@[simp] theorem setRndDrawn_dt (s : State) (x : Nat) : (s.setRndDrawn x).dt = s.dt := rfl
@[simp] theorem setRndDrawn_st (s : State) (x : Nat) : (s.setRndDrawn x).st = s.st := rfl
@[simp] theorem setRndDrawn_fb (s : State) (x : Nat) : (s.setRndDrawn x).fb = s.fb := rfl
@[simp] theorem setRndDrawn_mem (s : State) (x : Nat) : (s.setRndDrawn x).mem = s.mem := rfl
@[simp] theorem setRndDrawn_keypad (s : State) (x : Nat) : (s.setRndDrawn x).keypad = s.keypad := rfl
@[simp] theorem setRndDrawn_runState (s : State) (x : Nat) : (s.setRndDrawn x).runState = s.runState := rfl
@[simp] theorem setRndDrawn_fault (s : State) (x : Nat) : (s.setRndDrawn x).fault = s.fault := rfl
@[simp] theorem setRndDrawn_config (s : State) (x : Nat) : (s.setRndDrawn x).config = s.config := rfl
@[simp] theorem setRndDrawn_slotsLeft (s : State) (x : Nat) : (s.setRndDrawn x).slotsLeft = s.slotsLeft := rfl
@[simp] theorem setRndDrawn_script (s : State) (x : Nat) : (s.setRndDrawn x).script = s.script := rfl
@[simp] theorem setRndDrawn_rndIn (s : State) (x : Nat) : (s.setRndDrawn x).rndIn = s.rndIn := rfl
@[simp] theorem setRndDrawn_rndDrawn (s : State) (x : Nat) : (s.setRndDrawn x).rndDrawn = x := rfl
@[simp] theorem setRndDrawn_out (s : State) (x : Nat) : (s.setRndDrawn x).out = s.out := rfl
@[simp] theorem setRndDrawn_self (s : State) : s.setRndDrawn s.rndDrawn = s := rfl

/-! ### setOut -/

@[simp] theorem setOut_v (s : State) (x : List Output) : (s.setOut x).v = s.v := rfl
@[simp] theorem setOut_index (s : State) (x : List Output) : (s.setOut x).index = s.index := rfl
@[simp] theorem setOut_pc (s : State) (x : List Output) : (s.setOut x).pc = s.pc := rfl
@[simp] theorem setOut_stack (s : State) (x : List Output) : (s.setOut x).stack = s.stack := rfl
@[simp] theorem setOut_dt (s : State) (x : List Output) : (s.setOut x).dt = s.dt := rfl
@[simp] theorem setOut_st (s : State) (x : List Output) : (s.setOut x).st = s.st := rfl
@[simp] theorem setOut_fb (s : State) (x : List Output) : (s.setOut x).fb = s.fb := rfl
@[simp] theorem setOut_mem (s : State) (x : List Output) : (s.setOut x).mem = s.mem := rfl
@[simp] theorem setOut_keypad (s : State) (x : List Output) : (s.setOut x).keypad = s.keypad := rfl
@[simp] theorem setOut_runState (s : State) (x : List Output) : (s.setOut x).runState = s.runState := rfl
@[simp] theorem setOut_fault (s : State) (x : List Output) : (s.setOut x).fault = s.fault := rfl
@[simp] theorem setOut_config (s : State) (x : List Output) : (s.setOut x).config = s.config := rfl
@[simp] theorem setOut_slotsLeft (s : State) (x : List Output) : (s.setOut x).slotsLeft = s.slotsLeft := rfl
@[simp] theorem setOut_script (s : State) (x : List Output) : (s.setOut x).script = s.script := rfl
@[simp] theorem setOut_rndIn (s : State) (x : List Output) : (s.setOut x).rndIn = s.rndIn := rfl
@[simp] theorem setOut_rndDrawn (s : State) (x : List Output) : (s.setOut x).rndDrawn = s.rndDrawn := rfl
@[simp] theorem setOut_out (s : State) (x : List Output) : (s.setOut x).out = x := rfl
@[simp] theorem setOut_self (s : State) : s.setOut s.out = s := rfl

end Sys2Proof.Machine
end

