-- ==== Sys2Proof/Laws/Memory.lean ====
section
/-! SUPPORT. The laws of memory: what a read gives after a write, that every write keeps the canonical form, and
that canonical memories that read alike are equal. -/

namespace Sys2Proof.Machine

open Sys2Proof

namespace Memory

/-- The parts of the canonical form of a nonempty memory. -/
theorem wfFrom_cons {lo k : Nat} {w : Byte} {rest : Memory} :
    wfFrom lo ((k, w) :: rest) = true ↔ lo ≤ k ∧ k ≤ 0xFFF ∧ w ≠ resetByte k ∧ wfFrom (k + 1) rest = true := by
  simp [wfFrom, and_assoc]

theorem wfFrom_mono {m : Memory} {lo lo' : Nat} (h : wfFrom lo m = true) (hle : lo' ≤ lo) : wfFrom lo' m = true := by
  cases m with
  | nil => rfl
  | cons c rest =>
    obtain ⟨h1, h2⟩ := wfFrom_cons.1 h
    exact wfFrom_cons.2 ⟨by omega, h2⟩

/-- Below its first listed address a memory reads as at reset. -/
theorem lookup_of_lt {m : Memory} : ∀ {lo a : Nat}, wfFrom lo m = true → a < lo → m.lookup a = resetByte a := by
  induction m with
  | nil => intros; rfl
  | cons c rest ih =>
    obtain ⟨k, w⟩ := c
    intro lo a h ha
    obtain ⟨h1, -, -, h4⟩ := wfFrom_cons.1 h
    have hne : k ≠ a := by omega
    simp only [lookup, hne, if_false]
    exact ih h4 (by omega)

theorem wfFrom_insert {m : Memory} {a : Nat} (x : Byte) (ha : a ≤ 0xFFF) :
    ∀ {lo : Nat}, wfFrom lo m = true → lo ≤ a → wfFrom lo (m.insert a x) = true := by
  induction m with
  | nil =>
    intro lo _ hlo
    by_cases hx : x = resetByte a
    · simp [insert, hx, wfFrom]
    · simp [insert, hx, wfFrom, hlo, ha]
  | cons c rest ih =>
    obtain ⟨k, w⟩ := c
    intro lo h hlo
    obtain ⟨h1, h2, h3, h4⟩ := wfFrom_cons.1 h
    simp only [insert]
    split
    · split
      · exact h
      · exact wfFrom_cons.2 ⟨hlo, ha, ‹_›, wfFrom_cons.2 ⟨by omega, h2, h3, h4⟩⟩
    · split
      · split
        · exact wfFrom_mono h4 (by omega)
        · exact wfFrom_cons.2 ⟨hlo, ha, ‹_›, by subst_vars; exact h4⟩
      · exact wfFrom_cons.2 ⟨h1, h2, h3, ih h4 (by omega)⟩

theorem lookup_insert {m : Memory} (a b : Nat) (x : Byte) :
    ∀ {lo : Nat}, wfFrom lo m = true → (m.insert a x).lookup b = if b = a then x else m.lookup b := by
  induction m with
  | nil =>
    intro lo _
    by_cases hx : x = resetByte a <;> by_cases hb : b = a
    · simp [insert, hx, hb, lookup]
    · simp [insert, hx, hb, lookup]
    · simp [insert, hx, hb, lookup]
    · simp [insert, hx, hb, lookup, Ne.symm hb]
  | cons c rest ih =>
    obtain ⟨k, w⟩ := c
    intro lo h
    obtain ⟨h1, h2, h3, h4⟩ := wfFrom_cons.1 h
    simp only [insert]
    split
    · rename_i hak
      split
      · rename_i hx
        by_cases hb : b = a
        · have : k ≠ b := by omega
          simp only [hb, if_true, lookup, hx]
          rw [if_neg (by omega)]
          exact lookup_of_lt h4 (by omega)
        · simp [hb]
      · by_cases hb : b = a
        · simp [lookup, hb]
        · simp [lookup, hb, Ne.symm hb]
    · split
      · rename_i hak
        subst hak
        split
        · rename_i hx
          by_cases hb : b = a
          · simp only [hb, if_true, hx]
            exact lookup_of_lt h4 (by omega)
          · simp [lookup, hb, Ne.symm hb]
        · by_cases hb : b = a
          · simp [lookup, hb]
          · simp [lookup, hb, Ne.symm hb]
      · by_cases hk : k = b
        · have hb : b ≠ a := by omega
          simp [lookup, hk, hb]
        · simp only [lookup, hk, if_false]
          exact ih h4

/-- A write keeps the canonical form. -/
theorem wf_write {m : Memory} (h : m.wf = true) (a : Nat) (x : Byte) : (m.write a x).wf = true := by
  unfold write
  split
  · exact wfFrom_insert x ‹_› h (by omega)
  · exact h

/-- What a read gives after a write (spec 20_memory R40, R41). -/
theorem read_write {m : Memory} (h : m.wf = true) (a b : Nat) (x : Byte) :
    (m.write a x).read b = if b = a ∧ a ≤ 0xFFF then x else m.read b := by
  by_cases ha : a ≤ 0xFFF
  · by_cases hb : b ≤ 0xFFF
    · simp [write, read, ha, hb, lookup_insert a b x h]
    · have hne : b ≠ a := by omega
      simp [read, hb, hne]
  · simp [write, ha]

theorem read_write_self {m : Memory} (h : m.wf = true) {a : Nat} (x : Byte) (ha : a ≤ 0xFFF) :
    (m.write a x).read a = x := by simp [read_write h, ha]

theorem read_write_of_ne {m : Memory} (h : m.wf = true) {a b : Nat} (x : Byte) (hb : b ≠ a) :
    (m.write a x).read b = m.read b := by simp [read_write h, hb]

theorem read_of_gt (m : Memory) {a : Nat} (ha : 0xFFF < a) : m.read a = 0x00 := by
  simp [read, Nat.not_le.2 ha]

theorem wf_writeBytes {m : Memory} (h : m.wf = true) (a : Nat) (bs : List Byte) : (m.writeBytes a bs).wf = true := by
  induction bs generalizing m a with
  | nil => exact h
  | cons x rest ih => exact ih (wf_write h a x) (a + 1)

/-- A read outside the bytes written. -/
theorem read_writeBytes_of_not_mem {m : Memory} (h : m.wf = true) {a b : Nat} {bs : List Byte}
    (hb : b < a ∨ a + bs.length ≤ b) : (m.writeBytes a bs).read b = m.read b := by
  induction bs generalizing m a with
  | nil => rfl
  | cons x rest ih =>
    simp only [List.length_cons] at hb
    simp only [writeBytes]
    rw [ih (wf_write h a x) (by omega), read_write_of_ne h x (by omega)]

/-- A read inside the bytes written. -/
theorem read_writeBytes_of_lt {m : Memory} (h : m.wf = true) {a k : Nat} {bs : List Byte} (hk : k < bs.length)
    (ha : a + k ≤ 0xFFF) : (m.writeBytes a bs).read (a + k) = bs[k] := by
  induction bs generalizing m a k with
  | nil => simp at hk
  | cons x rest ih =>
    simp only [writeBytes]
    cases k with
    | zero =>
      rw [Nat.add_zero, read_writeBytes_of_not_mem (wf_write h a x) (by omega)]
      simpa using read_write_self h x (by omega)
    | succ k =>
      have := ih (m := m.write a x) (a := a + 1) (k := k) (wf_write h a x) (by simpa using hk) (by omega)
      rw [show a + (k + 1) = a + 1 + k by omega, this]
      simp

/-- Canonical memories that read alike at every address are equal: the form is canonical. -/
theorem eq_of_lookup {m n : Memory} : ∀ {lo : Nat}, wfFrom lo m = true → wfFrom lo n = true →
    (∀ a, lo ≤ a → a ≤ 0xFFF → m.lookup a = n.lookup a) → m = n := by
  induction m generalizing n with
  | nil =>
    intro lo _ hn h
    cases n with
    | nil => rfl
    | cons c rest =>
      obtain ⟨k, w⟩ := c
      obtain ⟨h1, h2, h3, -⟩ := wfFrom_cons.1 hn
      have := h k h1 h2
      simp [lookup] at this
      exact absurd this.symm h3
  | cons c rest ih =>
    obtain ⟨k, w⟩ := c
    intro lo hm hn h
    obtain ⟨h1, h2, h3, h4⟩ := wfFrom_cons.1 hm
    cases n with
    | nil =>
      have := h k h1 h2
      simp [lookup] at this
      exact absurd this h3
    | cons d rest' =>
      obtain ⟨k', w'⟩ := d
      obtain ⟨g1, g2, g3, g4⟩ := wfFrom_cons.1 hn
      rcases Nat.lt_trichotomy k k' with hlt | heq | hgt
      · have := h k h1 h2
        simp only [lookup, if_true] at this
        rw [if_neg (by omega), lookup_of_lt g4 (by omega)] at this
        exact absurd this h3
      · subst heq
        have hw := h k h1 h2
        simp only [lookup, if_true] at hw
        subst hw
        congr 1
        refine ih h4 g4 fun a ha ha' => ?_
        have := h a (by omega) ha'
        simp only [lookup] at this
        rwa [if_neg (by omega), if_neg (by omega)] at this
      · have := h k' g1 g2
        simp only [lookup, if_true] at this
        rw [if_neg (by omega), lookup_of_lt h4 (by omega)] at this
        exact absurd this.symm g3

theorem eq_of_read {m n : Memory} (hm : m.wf = true) (hn : n.wf = true) (h : ∀ a, m.read a = n.read a) : m = n :=
  eq_of_lookup hm hn fun a _ ha => by simpa [read, ha] using h a

/-- Reset memory is in canonical form. -/
theorem wf_ofReset (font : Vector Byte 80) : (ofReset font).wf = true := wf_writeBytes rfl _ _

theorem resetByte_of_lt {a : Nat} (h : a < 0x050) : resetByte a = 0x00 := by simp [resetByte, h]

theorem resetByte_of_ge {a : Nat} (h : 0x0A0 ≤ a) : resetByte a = 0x00 := by
  have h1 : ¬ a < 0x050 := by omega
  have h2 : ¬ a - 0x050 < 80 := by omega
  simp only [resetByte, h1, h2, if_false, dite_false]

/-- Reset memory holds the font (spec 20_memory R43). -/
theorem read_ofReset_font (font : Vector Byte 80) {j : Nat} (hj : j < 80) : (ofReset font).read (0x050 + j) = font[j] := by
  have h := read_writeBytes_of_lt (m := []) rfl (a := 0x050) (k := j) (bs := font.toList) (by simpa using hj) (by omega)
  simpa [ofReset] using h

/-- Reset memory is zero outside the font (spec 10_state R37). -/
theorem read_ofReset_zero (font : Vector Byte 80) {a : Nat} (h : a < 0x050 ∨ 0x0A0 ≤ a) : (ofReset font).read a = 0x00 := by
  unfold ofReset
  rw [read_writeBytes_of_not_mem rfl (by simp; omega)]
  unfold read
  split
  · rcases h with h | h
    · exact resetByte_of_lt h
    · exact resetByte_of_ge h
  · rfl

end Memory

/-! ### Memory in the state -/

theorem memWrite_eq (s : State) (a : Nat) (x : Byte) : s.memWrite a x = s.setMem (s.mem.write a x) := rfl

@[simp] theorem memWrite_mem (s : State) (a : Nat) (x : Byte) : (s.memWrite a x).mem = s.mem.write a x := rfl

@[simp] theorem reg_memWrite (s : State) (a : Nat) (x : Byte) (r : Reg) : (s.memWrite a x).reg r = s.reg r := rfl

@[simp] theorem addrAt_memWrite (s : State) (a : Nat) (x : Byte) (k : Nat) : (s.memWrite a x).addrAt k = s.addrAt k := rfl

/-- What `MemRead` gives after a `MemWrite`. -/
theorem memRead_memWrite {s : State} (h : s.mem.wf = true) (a b : Nat) (x : Byte) :
    (s.memWrite a x).memRead b = if b = a ∧ a ≤ 0xFFF then x else s.memRead b := Memory.read_write h a b x

end Sys2Proof.Machine
end

