-- ==== Sys2Proof/Laws/Ops.lean ====
section
/-! SUPPORT. One lemma per shared operation, saying everything it does, for the operations over registers, pc,
the stack, flags, the random source, keys and register lists. -/

namespace Sys2Proof.Machine

open Sys2Proof

@[simp] theorem advance_eq (s : State) : s.advance = s.setPc (s.pc + 2) := rfl

@[simp] theorem skipIf_eq (s : State) (c : Bool) : s.skipIf c = s.setPc (if c then s.pc + 2 else s.pc) := by
  cases c <;> rfl

@[simp] theorem push_eq (s : State) (x : Word) : s.push x = s.setStack (x :: s.stack) := rfl

@[simp] theorem emit_eq (s : State) (e : Output) : s.emit e = s.setOut (s.out ++ [e]) := rfl

@[simp] theorem raiseFault_eq (s : State) (c : FaultCause) (a op : Word) :
    s.raiseFault c a op = (s.setPc a).setFault ⟨c, a, op⟩ := rfl

theorem depthAllowed_iff (limit : StackDepth) (s : State) :
    depthAllowed limit s.stack.length = true ↔ StackFits limit s := by
  unfold depthAllowed StackFits
  split
  · constructor
    · rintro h _ _ ⟨⟩
      simpa using h
    · intro h
      simpa using h _ _ rfl
  · simp

/-- An empty stack is within every bound. -/
theorem stackFits_of_nil {s : State} (limit : StackDepth) (h : s.stack = []) : StackFits limit s := by
  intro entries _ _
  simp [h]

/-- The stack is full exactly when it is bounded and holds as many entries as the bound. -/
theorem stackFull_iff (s : State) :
    s.stackFull = true ↔ ∃ entries positive, s.config.stackDepth = .bounded entries positive ∧ s.stack.length = entries := by
  unfold State.stackFull
  split <;> simp_all

theorem stackFull_unbounded {s : State} (h : s.config.stackDepth = .unbounded) : s.stackFull = false := by
  simp [State.stackFull, h]

/-! ### Result, then flag -/

theorem setResultThenFlag_eq (s : State) (x : Reg) (r : Byte) (f : Bool) :
    s.setResultThenFlag x r f = (s.setReg x r).setReg regVF (flagByte f) := rfl

/-- VF holds the flag, whatever the destination. -/
@[simp] theorem reg_setResultThenFlag_vf (s : State) (x : Reg) (r : Byte) (f : Bool) :
    (s.setResultThenFlag x r f).reg regVF = flagByte f := by simp [setResultThenFlag_eq]

/-- Every register but VF: the destination holds the result, the others are unchanged. -/
theorem reg_setResultThenFlag_of_ne (s : State) (x : Reg) (r : Byte) (f : Bool) {q : Reg} (h : q ≠ regVF) :
    (s.setResultThenFlag x r f).reg q = if q = x then r else s.reg q := by
  rw [setResultThenFlag_eq, reg_setReg_of_ne _ _ h, reg_setReg]

@[simp] theorem flagByte_true : flagByte true = 0x01 := rfl
@[simp] theorem flagByte_false : flagByte false = 0x00 := rfl

theorem carryOut_iff (a b : Byte) : carryOut a b = true ↔ a.toNat + b.toNat > 0xFF := by simp [carryOut]

theorem notBorrow_iff (a b : Byte) : notBorrow a b = true ↔ b.toNat ≤ a.toNat := by simp [notBorrow]

/-! ### The random source -/

/-- A byte that waits on the input is given and gone. -/
theorem rnd_of_waiting {s : State} {r : Byte} {rest : List Byte} (h : s.rndIn = r :: rest) :
    s.rndByte = r ∧ s.rndTaken = s.setRndIn rest := by
  simp [State.rndByte, State.rndTaken, h]

/-- With nothing waiting a free value is given, and never again. -/
theorem rnd_of_free {s : State} (h : s.rndIn = []) :
    s.rndByte = Config.freeRnd s.rndDrawn ∧ s.rndTaken = s.setRndDrawn (s.rndDrawn + 1) := by
  simp [State.rndByte, State.rndTaken, h]

/-- The random source is the only part that a draw changes. -/
theorem rndTaken_cases (s : State) : ∃ xs n, s.rndTaken = (s.setRndIn xs).setRndDrawn n := by
  cases h : s.rndIn with
  | nil => exact ⟨s.rndIn, s.rndDrawn + 1, by rw [(rnd_of_free h).2]; rfl⟩
  | cons r rest => exact ⟨rest, s.rndDrawn, by rw [(rnd_of_waiting h).2]; rfl⟩

/-! ### Keys -/

theorem keyDown_iff (keys : BitVec 16) (k : Byte) : keyDown keys k = true ↔ k.toNat ≤ 0xF ∧ keys.getLsbD k.toNat = true := by
  simp [keyDown]

theorem lowestKeyFrom_spec (keys : BitVec 16) (count : Nat) : ∀ k,
    match lowestKeyFrom keys k count with
    | some j => keys.getLsbD j = true ∧ k ≤ j ∧ j < k + count ∧ ∀ i, k ≤ i → i < j → keys.getLsbD i = false
    | none => ∀ i, k ≤ i → i < k + count → keys.getLsbD i = false := by
  induction count with
  | zero => intro k i h1 h2; omega
  | succ n ih =>
    intro k
    by_cases hk : keys.getLsbD k = true
    · simp only [lowestKeyFrom, hk, if_true]
      exact ⟨trivial, le_refl _, by omega, fun i h1 h2 => by omega⟩
    · have hk' : keys.getLsbD k = false := by simpa using hk
      simp only [lowestKeyFrom, hk', Bool.false_eq_true, if_false]
      have h := ih (k + 1)
      split
      · rename_i j hj
        rw [hj] at h
        obtain ⟨h1, h2, h3, h4⟩ := h
        refine ⟨h1, by omega, by omega, fun i hi hij => ?_⟩
        rcases Nat.eq_or_lt_of_le hi with rfl | hlt
        · exact hk'
        · exact h4 i hlt hij
      · rename_i hj
        rw [hj] at h
        intro i hi hin
        rcases Nat.eq_or_lt_of_le hi with rfl | hlt
        · exact hk'
        · exact h i hlt (by omega)

/-- A key is found exactly when one is down, and then it is the lowest (spec 45_timers_keypad R110). -/
theorem lowestKey_some {keys : BitVec 16} {k : Nat} (h : lowestKey keys = some k) :
    keys.getLsbD k = true ∧ k < 16 ∧ ∀ j, j < k → keys.getLsbD j = false := by
  have := lowestKeyFrom_spec keys 16 0
  rw [show lowestKeyFrom keys 0 16 = some k from h] at this
  exact ⟨this.1, by omega, fun j hj => this.2.2.2 j (by omega) hj⟩

theorem lowestKey_none_iff (keys : BitVec 16) : lowestKey keys = none ↔ keys = 0 := by
  constructor
  · intro h
    have := lowestKeyFrom_spec keys 16 0
    rw [show lowestKeyFrom keys 0 16 = none from h] at this
    apply BitVec.eq_of_getLsbD_eq
    intro i hi
    simpa using this i (by omega) (by omega)
  · rintro rfl
    decide

/-! ### Register lists -/

theorem mem_allRegs (r : Reg) : r ∈ allRegs := by revert r; decide

theorem nodup_allRegs : allRegs.Nodup := by decide

@[simp] theorem mem_regsUpTo (x r : Reg) : r ∈ regsUpTo x ↔ r ≤ x := by
  simp [regsUpTo, mem_allRegs]

theorem nodup_regsUpTo (x : Reg) : (regsUpTo x).Nodup := nodup_allRegs.filter _

/-- Storing registers changes memory only, and keeps its canonical form. -/
theorem storeRegs_eq (s : State) (rs : List Reg) : ∃ m, s.storeRegs rs = s.setMem m ∧ (s.mem.wf = true → m.wf = true) := by
  induction rs generalizing s with
  | nil => exact ⟨s.mem, rfl, id⟩
  | cons r rest ih =>
    obtain ⟨m, hm, hw⟩ := ih (s.memWrite (s.addrAt r.val) (s.reg r))
    exact ⟨m, hm, fun h => hw (Memory.wf_write h _ _)⟩

/-- Outside the addresses stored to, storing registers leaves memory alone. -/
theorem memRead_storeRegs_of_not_mem {s : State} (h : s.mem.wf = true) {rs : List Reg} {a : Nat}
    (ha : ∀ r ∈ rs, a ≠ s.addrAt r.val) : (s.storeRegs rs).memRead a = s.memRead a := by
  induction rs generalizing s with
  | nil => rfl
  | cons r rest ih =>
    have h' : (s.memWrite (s.addrAt r.val) (s.reg r)).mem.wf = true := Memory.wf_write h _ _
    rw [State.storeRegs, ih h' fun q hq => ha q (List.mem_cons_of_mem _ hq), memRead_memWrite h]
    simp [ha r List.mem_cons_self]

/-- At each address stored to there is the register's value. -/
theorem memRead_storeRegs_of_mem {s : State} (h : s.mem.wf = true) {rs : List Reg} (hnd : rs.Nodup) {r : Reg}
    (hr : r ∈ rs) (ha : s.addrAt r.val ≤ 0xFFF) : (s.storeRegs rs).memRead (s.addrAt r.val) = s.reg r := by
  induction rs generalizing s with
  | nil => simp at hr
  | cons q rest ih =>
    obtain ⟨hq, hrest⟩ := List.nodup_cons.1 hnd
    have h' : (s.memWrite (s.addrAt q.val) (s.reg q)).mem.wf = true := Memory.wf_write h _ _
    rcases List.mem_cons.1 hr with rfl | hmem
    · rw [State.storeRegs, memRead_storeRegs_of_not_mem h', memRead_memWrite h]
      · simp [ha]
      · intro p hp he
        have : r.val = p.val := by
          have he' : s.index.toNat + r.val = s.index.toNat + p.val := he
          omega
        exact hq (Fin.ext this ▸ hp)
    · exact ih h' hrest hmem ha

/-- Loading registers changes the register file only. -/
theorem loadRegs_eq (s : State) (rs : List Reg) : ∃ v, s.loadRegs rs = { s with v := v } := by
  induction rs generalizing s with
  | nil => exact ⟨s.v, rfl⟩
  | cons r rest ih => exact ih (s.setReg r _)

/-- What a register holds after loading. -/
theorem reg_loadRegs (s : State) {rs : List Reg} (q : Reg) :
    (s.loadRegs rs).reg q = if q ∈ rs then s.memRead (s.addrAt q.val) else s.reg q := by
  induction rs generalizing s with
  | nil => simp [State.loadRegs]
  | cons r rest ih =>
    simp only [State.loadRegs]
    rw [ih]
    by_cases hq : q ∈ rest
    · simp [hq, State.addrAt]
    · by_cases hqr : q = r
      · subst hqr; simp [hq, State.addrAt]
      · simp [hq, hqr]

/-! ### The outputs -/

/-- The REG_CHANGE events are exactly the registers that hold another value (spec 60_exceptions R128). -/
theorem mem_regChanges (before after : State) (r : Reg) (x : Byte) :
    Output.regChange r x ∈ regChanges before after ↔ after.reg r ≠ before.reg r ∧ x = after.reg r := by
  simp only [regChanges, List.mem_filterMap]
  constructor
  · rintro ⟨q, -, hq⟩
    split at hq
    · cases hq
    · simp only [Option.some.injEq, Output.regChange.injEq] at hq
      obtain ⟨rfl, rfl⟩ := hq
      exact ⟨‹_›, rfl⟩
  · rintro ⟨h, rfl⟩
    exact ⟨r, mem_allRegs r, by simp [h]⟩

end Sys2Proof.Machine
end

