-- ==== Sys2Proof/Laws/Display.lean ====
section
/-! SUPPORT. The laws of the display: a pixel after a pixel write, and what one sprite row does to every pixel. -/

namespace Sys2Proof.Machine

open Sys2Proof

@[simp] theorem pixel_blank (x y : Nat) : Framebuffer.blank.pixel x y = false := by
  unfold Framebuffer.pixel Framebuffer.blank
  split <;> simp

theorem getLsbD_rowWithPixel (row : BitVec 64) {x : Nat} (hx : x ≤ 63) (b : Bool) (i : Nat) :
    (rowWithPixel row x b).getLsbD i = if i = x then b else row.getLsbD i := by
  unfold rowWithPixel
  by_cases hi : i = x
  · subst hi
    cases b <;> simp [Nat.lt_succ_of_le hx]
  · have hne : x ≠ i := fun e => hi e.symm
    cases b
    · simp only [Bool.false_eq_true, if_false, hi]
      by_cases h64 : i < 64
      · simp [h64, hi]
      · rw [BitVec.getLsbD_of_ge _ _ (by omega), BitVec.getLsbD_of_ge _ _ (by omega)]
    · simp [BitVec.getLsbD_twoPow, hi, hne]

/-- A pixel after a write to one pixel. -/
theorem pixel_setPixel (fb : Framebuffer) {x y : Nat} (hx : x ≤ 63) (hy : y ≤ 31) (b : Bool) (i j : Nat) :
    (fb.setPixel x y b).pixel i j = if i = x ∧ j = y then b else fb.pixel i j := by
  have hy' : y < 32 := by omega
  simp only [Framebuffer.setPixel, hy', dite_true, Framebuffer.pixel]
  by_cases hj : j < 32
  · simp only [hj, dite_true]
    by_cases hjy : j = y
    · subst hjy
      simp [getLsbD_rowWithPixel _ hx]
    · have : y ≠ j := fun e => hjy e.symm
      simp [hjy, this]
  · have : j ≠ y := by omega
    simp [hj, this]

/-- Framebuffers with the same pixels are equal. -/
theorem fb_ext {f g : Framebuffer} (h : ∀ x y, x ≤ 63 → y ≤ 31 → f.pixel x y = g.pixel x y) : f = g := by
  apply Vector.ext
  intro y hy
  apply BitVec.eq_of_getLsbD_eq
  intro x hx
  have := h x y (by omega) (by omega)
  simpa [Framebuffer.pixel, hy] using this

/-- One sprite bit of 1: the pixel flips, and the collision is the pixel before it (spec 44_display R105). -/
theorem pixel_flip (c : Canvas) {x y : Nat} (hx : x ≤ 63) (hy : y ≤ 31) (i j : Nat) :
    (c.flip x y).1.pixel i j = (c.1.pixel i j ^^ decide (i = x ∧ j = y)) := by
  unfold Canvas.flip
  by_cases hp : c.1.pixel x y = true
  · simp only [hp, if_true, pixel_setPixel _ hx hy]
    by_cases hij : i = x ∧ j = y
    · obtain ⟨rfl, rfl⟩ := hij; simp [hp]
    · simp [hij]
  · rw [if_neg hp, pixel_setPixel _ hx hy]
    by_cases hij : i = x ∧ j = y
    · obtain ⟨rfl, rfl⟩ := hij; simp [hp]
    · simp [hij]

theorem hit_flip (c : Canvas) (x y : Nat) : (c.flip x y).2 = (c.2 || c.1.pixel x y) := by
  unfold Canvas.flip
  by_cases hp : c.1.pixel x y = true <;> simp [hp]

/-- The bit of the sprite row `row`, drawn from column `x0` in row `yy`, that lies on pixel (i, j), for the bit
numbers `b` to `b + count - 1`. -/
def rowBit (row : Byte) (x0 yy b count i j : Nat) : Bool :=
  decide (j = yy ∧ i ≤ 63 ∧ x0 + b ≤ i ∧ i < x0 + b + count) && row.getLsbD (7 - (i - x0))

theorem rowBit_zero (row : Byte) (x0 yy b i j : Nat) : rowBit row x0 yy b 0 i j = false := by
  unfold rowBit
  rw [decide_eq_false (by omega)]
  rfl

theorem rowBit_succ (row : Byte) {x0 yy b : Nat} (count i j : Nat) (h : x0 + b ≤ 63) :
    rowBit row x0 yy b (count + 1) i j =
      ((row.getLsbD (7 - b) && decide (i = x0 + b ∧ j = yy)) || rowBit row x0 yy (b + 1) count i j) := by
  unfold rowBit
  by_cases hj : j = yy
  · by_cases hi : i = x0 + b
    · subst hi
      simp [hj, h]
    · have : (j = yy ∧ i ≤ 63 ∧ x0 + b ≤ i ∧ i < x0 + b + (count + 1)) ↔
          (j = yy ∧ i ≤ 63 ∧ x0 + (b + 1) ≤ i ∧ i < x0 + (b + 1) + count) := by omega
      simp only [this, hi, false_and, decide_false, Bool.and_false, Bool.false_or]
  · simp [hj]

theorem rowBit_of_right (row : Byte) {x0 yy b : Nat} (count i j : Nat) (h : 63 < x0 + b) :
    rowBit row x0 yy b count i j = false := by
  unfold rowBit
  rw [decide_eq_false (by omega)]
  rfl

/-- One sprite row: every pixel is the exclusive or of the pixel before and the sprite's bit on it. -/
theorem pixel_drawBits (row : Byte) (x0 : Nat) {yy : Nat} (hy : yy ≤ 31) (count i j : Nat) :
    ∀ b (c : Canvas), (drawBits row x0 yy b count c).1.pixel i j = (c.1.pixel i j ^^ rowBit row x0 yy b count i j) := by
  induction count with
  | zero => intro b c; simp [drawBits, rowBit_zero]
  | succ n ih =>
    intro b c
    simp only [drawBits]
    by_cases h : x0 + b > 63
    · simp [h, rowBit_of_right]
    · have hx : x0 + b ≤ 63 := by omega
      rw [if_neg h, ih, rowBit_succ _ _ _ _ hx]
      have hdis : i = x0 + b → rowBit row x0 yy (b + 1) n i j = false := by
        intro hi
        unfold rowBit
        rw [decide_eq_false (by omega)]
        rfl
      by_cases hr : row.getLsbD (7 - b) = true
      · simp only [hr, if_true, pixel_flip c hx hy, Bool.true_and]
        by_cases hij : i = x0 + b ∧ j = yy
        · rw [hdis hij.1]; simp [hij]
        · simp [hij]
      · simp [hr]

/-- One sprite row collides when a bit of it lies on a pixel that is on. -/
theorem hit_drawBits (row : Byte) (x0 : Nat) {yy : Nat} (hy : yy ≤ 31) (count : Nat) :
    ∀ b (c : Canvas), (drawBits row x0 yy b count c).2 = true ↔
      c.2 = true ∨ ∃ i, rowBit row x0 yy b count i yy = true ∧ c.1.pixel i yy = true := by
  induction count with
  | zero => intro b c; simp [drawBits, rowBit_zero]
  | succ n ih =>
    intro b c
    simp only [drawBits]
    by_cases h : x0 + b > 63
    · simp [h, rowBit_of_right]
    · have hx : x0 + b ≤ 63 := by omega
      rw [if_neg h, ih]
      have hlater : ∀ i, rowBit row x0 yy (b + 1) n i yy = true → i ≠ x0 + b := by
        intro i hi he
        unfold rowBit at hi
        rw [decide_eq_false (by omega)] at hi
        simp at hi
      by_cases hr : row.getLsbD (7 - b) = true
      · simp only [hr, if_true, hit_flip, Bool.or_eq_true, pixel_flip c hx hy, rowBit_succ _ _ _ _ hx, Bool.true_and]
        constructor
        · rintro ((h2 | hp) | ⟨i, hi, hpi⟩)
          · exact .inl h2
          · exact .inr ⟨x0 + b, by simp, hp⟩
          · have := hlater i hi
            exact .inr ⟨i, by simp [hi], by simpa [this] using hpi⟩
        · rintro (h2 | ⟨i, hi, hpi⟩)
          · exact .inl (.inl h2)
          · simp only [and_true, decide_eq_true_eq] at hi
            rcases hi with rfl | hi
            · exact .inl (.inr hpi)
            · have := hlater i hi
              exact .inr ⟨i, hi, by simpa [this] using hpi⟩
      · simp [hr, rowBit_succ _ _ _ _ hx]

/-- The bit on pixel (i, j) of the sprite rows `k` to `k + count - 1` read from `base`, drawn from (x0, y0). -/
def spritePixel (m : Memory) (base x0 y0 k count i j : Nat) : Bool :=
  decide (y0 + k ≤ j ∧ j < y0 + k + count ∧ j ≤ 31) && rowBit (m.read (base + (j - y0))) x0 j 0 8 i j

theorem spritePixel_none (m : Memory) (base x0 y0 : Nat) {k count : Nat} (i j : Nat) (h : count = 0 ∨ 31 < y0 + k) :
    spritePixel m base x0 y0 k count i j = false := by
  unfold spritePixel
  rw [decide_eq_false (by omega)]
  rfl

theorem rowBit_of_row_ne (row : Byte) {x0 yy : Nat} (b count i : Nat) {j : Nat} (h : j ≠ yy) :
    rowBit row x0 yy b count i j = false := by
  simp [rowBit, h]

/-- The first row, and the rows after it, of which no bit lies on the first. -/
theorem spritePixel_succ (m : Memory) (base x0 : Nat) {y0 k : Nat} (count i j : Nat) (h : y0 + k ≤ 31) :
    spritePixel m base x0 y0 k (count + 1) i j =
      (rowBit (m.read (base + k)) x0 (y0 + k) 0 8 i j ^^ spritePixel m base x0 y0 (k + 1) count i j) := by
  unfold spritePixel
  by_cases hj : j = y0 + k
  · subst hj
    simp only [Nat.add_sub_cancel_left]
    rw [decide_eq_true (by omega), decide_eq_false (by omega)]
    simp
  · rw [rowBit_of_row_ne _ _ _ _ hj, Bool.false_xor]
    congr 1
    simp only [decide_eq_decide]
    omega

/-- A whole sprite: every pixel is the exclusive or of the pixel before and the sprite's bit on it (spec 44_display
R104). -/
theorem pixel_drawRows (m : Memory) (base x0 y0 i j count : Nat) : ∀ k (c : Canvas),
    (drawRows m base x0 y0 k count c).1.pixel i j = (c.1.pixel i j ^^ spritePixel m base x0 y0 k count i j) := by
  induction count with
  | zero => intro k c; simp [drawRows, spritePixel_none]
  | succ n ih =>
    intro k c
    simp only [drawRows]
    by_cases h : y0 + k > 31
    · simp [h, spritePixel_none]
    · rw [if_neg h, ih, pixel_drawBits _ _ (by omega), spritePixel_succ _ _ _ _ _ _ (by omega), Bool.xor_assoc]

/-- A whole sprite collides when a bit of it lies on a pixel that is on before (spec 44_display R105). -/
theorem hit_drawRows (m : Memory) (base x0 y0 count : Nat) : ∀ k (c : Canvas),
    (drawRows m base x0 y0 k count c).2 = true ↔
      c.2 = true ∨ ∃ i j, spritePixel m base x0 y0 k count i j = true ∧ c.1.pixel i j = true := by
  induction count with
  | zero => intro k c; simp [drawRows, spritePixel_none]
  | succ n ih =>
    intro k c
    simp only [drawRows]
    by_cases h : y0 + k > 31
    · simp [h, spritePixel_none]
    · have hy : y0 + k ≤ 31 := by omega
      rw [if_neg h, ih, hit_drawBits _ _ hy]
      have hlow : ∀ i, spritePixel m base x0 y0 (k + 1) n i (y0 + k) = false := by
        intro i
        unfold spritePixel
        rw [decide_eq_false (by omega)]
        rfl
      constructor
      · rintro ((h2 | ⟨i, hi, hp⟩) | ⟨i, j, hij, hp⟩)
        · exact .inl h2
        · exact .inr ⟨i, y0 + k, by rw [spritePixel_succ _ _ _ _ _ _ hy, hi, hlow]; rfl, hp⟩
        · have hj : j ≠ y0 + k := by rintro rfl; simp [hlow] at hij
          rw [pixel_drawBits _ _ hy, rowBit_of_row_ne _ _ _ _ hj, Bool.xor_false] at hp
          exact .inr ⟨i, j, by rw [spritePixel_succ _ _ _ _ _ _ hy, rowBit_of_row_ne _ _ _ _ hj, hij]; rfl, hp⟩
      · rintro (h2 | ⟨i, j, hij, hp⟩)
        · exact .inl (.inl h2)
        · rw [spritePixel_succ _ _ _ _ _ _ hy] at hij
          by_cases hj : j = y0 + k
          · subst hj
            rw [hlow, Bool.xor_false] at hij
            exact .inl (.inr ⟨i, hij, hp⟩)
          · rw [rowBit_of_row_ne _ _ _ _ hj, Bool.false_xor] at hij
            exact .inr ⟨i, j, hij, by rw [pixel_drawBits _ _ hy, rowBit_of_row_ne _ _ _ _ hj, Bool.xor_false]; exact hp⟩

end Sys2Proof.Machine
end

