-- ==== Sys2Proof/Laws/Meanings.lean ====
section
/-! SUPPORT. One spec lemma per instruction: the next state of its meaning, in the updates of Laws/State.lean. -/

namespace Sys2Proof.Machine

open Sys2Proof

/-! ### Control flow -/

theorem exec_ret_cons {s : State} {top : Word} {rest : List Word} (h : s.stack = top :: rest) :
    exec .ret s = .next ((s.setStack rest).setPc top) := by simp [exec, execRet, h]

theorem exec_ret_nil {s : State} (h : s.stack = []) : exec .ret s = .next (s.setPc 0x200) := by
  simp [exec, execRet, h]

theorem exec_jp (nnn : Addr12) (s : State) : exec (.jp nnn) s = .next (s.setPc (addrWord nnn)) := rfl

theorem exec_call_room {s : State} (nnn : Addr12) (h : s.stackFull = false) :
    exec (.call nnn) s = .next ((s.setStack (s.pc :: s.stack)).setPc (addrWord nnn)) := by
  simp [exec, execCall, h]

theorem exec_call_full {s : State} (nnn : Addr12) (h : s.stackFull = true) :
    exec (.call nnn) s =
      .next ((s.setPc (s.pc - 2)).setFault ⟨.stackOverflow, s.pc - 2, encode (.call nnn)⟩) := by
  simp [exec, execCall, h]

theorem exec_jpV0 (nnn : Addr12) (s : State) :
    exec (.jpV0 nnn) s = .next (s.setPc (byteWord (s.jumpOffset nnn) + addrWord nnn)) := rfl

theorem exec_seImm (x : Reg) (kk : Byte) (s : State) :
    exec (.seImm x kk) s = .next (s.setPc (if s.reg x == kk then s.pc + 2 else s.pc)) := by
  simp [exec, execSeImm]

theorem exec_sneImm (x : Reg) (kk : Byte) (s : State) :
    exec (.sneImm x kk) s = .next (s.setPc (if s.reg x != kk then s.pc + 2 else s.pc)) := by
  simp [exec, execSneImm]

theorem exec_seReg (x y : Reg) (ignored : Nibble) (s : State) :
    exec (.seReg x y ignored) s = .next (s.setPc (if s.reg x == s.reg y then s.pc + 2 else s.pc)) := by
  simp [exec, execSeReg]

theorem exec_sneReg (x y : Reg) (ignored : Nibble) (s : State) :
    exec (.sneReg x y ignored) s = .next (s.setPc (if s.reg x != s.reg y then s.pc + 2 else s.pc)) := by
  simp [exec, execSneReg]

/-! ### Registers and arithmetic -/

theorem exec_ldImm (x : Reg) (kk : Byte) (s : State) : exec (.ldImm x kk) s = .next (s.setReg x kk) := rfl

theorem exec_addImm (x : Reg) (kk : Byte) (s : State) :
    exec (.addImm x kk) s = .next (s.setReg x (s.reg x + kk)) := rfl

theorem exec_ldReg (x y : Reg) (s : State) : exec (.ldReg x y) s = .next (s.setReg x (s.reg y)) := rfl

theorem exec_orReg (x y : Reg) (s : State) :
    exec (.orReg x y) s = .next (s.setReg x (s.reg x ||| s.reg y)) := rfl

theorem exec_andReg (x y : Reg) (s : State) :
    exec (.andReg x y) s = .next (s.setReg x (s.reg x &&& s.reg y)) := rfl

theorem exec_xorReg (x y : Reg) (s : State) :
    exec (.xorReg x y) s = .next (s.setReg x (s.reg x ^^^ s.reg y)) := rfl

theorem exec_addReg (x y : Reg) (s : State) : exec (.addReg x y) s =
    .next ((s.setReg x (s.reg x + s.reg y)).setReg regVF (flagByte (carryOut (s.reg x) (s.reg y)))) := rfl

theorem exec_subReg (x y : Reg) (s : State) : exec (.subReg x y) s =
    .next ((s.setReg x (s.reg x - s.reg y)).setReg regVF (flagByte (notBorrow (s.reg x) (s.reg y)))) := rfl

theorem exec_shr (x y : Reg) (s : State) : exec (.shr x y) s =
    .next ((s.setReg x (s.shiftSource x y >>> 1)).setReg regVF (flagByte (droppedLow (s.shiftSource x y)))) := rfl

theorem exec_subn (x y : Reg) (s : State) : exec (.subn x y) s =
    .next ((s.setReg x (s.reg y - s.reg x)).setReg regVF (flagByte (notBorrow (s.reg y) (s.reg x)))) := rfl

theorem exec_shl (x y : Reg) (s : State) : exec (.shl x y) s =
    .next ((s.setReg x (s.shiftSource x y <<< 1)).setReg regVF (flagByte (droppedHigh (s.shiftSource x y)))) := rfl

theorem exec_rnd (x : Reg) (kk : Byte) (s : State) :
    exec (.rnd x kk) s = .next (s.rndTaken.setReg x (s.rndByte &&& kk)) := rfl

/-! ### Index and memory -/

theorem exec_ldI (nnn : Addr12) (s : State) : exec (.ldI nnn) s = .next (s.setIndex (addrWord nnn)) := rfl

theorem exec_addI (x : Reg) (s : State) :
    exec (.addI x) s = .next (s.setIndex (s.index + byteWord (s.reg x))) := rfl

theorem exec_ldF (x : Reg) (s : State) : exec (.ldF x) s = .next (s.setIndex (s.glyphAddress x)) := rfl

theorem exec_ldB (x : Reg) (s : State) : exec (.ldB x) s =
    .next (s.setMem (((s.mem.write (s.addrAt 0) (hundreds (s.reg x))).write (s.addrAt 1) (tens (s.reg x))).write
      (s.addrAt 2) (ones (s.reg x)))) := rfl

theorem exec_ldMemVx (x : Reg) (s : State) : exec (.ldMemVx x) s = .next (s.storeRegs (regsUpTo x)) := rfl

theorem exec_ldVxMem (x : Reg) (s : State) : exec (.ldVxMem x) s = .next (s.loadRegs (regsUpTo x)) := rfl

/-! ### Display -/

theorem exec_cls (s : State) : exec .cls s = .next (s.setFb Framebuffer.blank) := rfl

theorem exec_drw (x y : Reg) (n : Nat) (s : State) : exec (.drw x y n) s =
    .next ((s.setFb (s.drawn x y n).1).setReg regVF (flagByte (s.drawn x y n).2)) := rfl

/-! ### Keypad and timers -/

theorem exec_skp (x : Reg) (s : State) :
    exec (.skp x) s = .next (s.setPc (if keyDown s.keypad (s.reg x) then s.pc + 2 else s.pc)) := by
  simp [exec, execSkp]

theorem exec_sknp (x : Reg) (s : State) :
    exec (.sknp x) s = .next (s.setPc (if !keyDown s.keypad (s.reg x) then s.pc + 2 else s.pc)) := by
  simp [exec, execSknp]

theorem exec_ldVxDt (x : Reg) (s : State) : exec (.ldVxDt x) s = .next (s.setReg x s.dt) := rfl

theorem exec_ldVxK_up {s : State} (x : Reg) (h : s.keypad = 0) :
    exec (.ldVxK x) s = .next (s.setPc (s.pc - 2)) := by
  simp [exec, execLdVxK, (lowestKey_none_iff s.keypad).2 h]

theorem exec_ldVxK_down {s : State} (x : Reg) {k : Nat} (h : lowestKey s.keypad = some k) :
    exec (.ldVxK x) s = .next (s.setReg x (BitVec.ofNat 8 k)) := by
  simp [exec, execLdVxK, h]

theorem exec_ldDtVx (x : Reg) (s : State) : exec (.ldDtVx x) s = .next (s.setDt (s.reg x)) := rfl

theorem exec_ldStVx (x : Reg) (s : State) : exec (.ldStVx x) s = .next (s.setSt (s.reg x)) := rfl

/-! ### Every instruction -/

/-- Every instruction answers a next state, in every state (spec 60_exceptions R113). -/
theorem exec_next (i : Instr) (s : State) : ∃ t, exec i s = .next t := by
  cases i
  case ret =>
    cases h : s.stack with
    | nil => exact ⟨_, exec_ret_nil h⟩
    | cons top rest => exact ⟨_, exec_ret_cons h⟩
  case call nnn =>
    cases h : s.stackFull
    · exact ⟨_, exec_call_room nnn h⟩
    · exact ⟨_, exec_call_full nnn h⟩
  case ldVxK x =>
    cases h : lowestKey s.keypad with
    | none => exact ⟨_, exec_ldVxK_up x ((lowestKey_none_iff _).1 h)⟩
    | some k => exact ⟨_, exec_ldVxK_down x h⟩
  all_goals exact ⟨_, rfl⟩

end Sys2Proof.Machine
end

