-- ==== Sys2Proof/Laws/Cycle.lean ====
section
/-! SUPPORT. Everything a step can do: one inversion lemma per function of Machine/Cycle.lean. -/

namespace Sys2Proof.Machine

open Sys2Proof

/-! ### Frames -/

theorem KeepsAllBut.refl (ps : List Part) (s : State) : KeepsAllBut ps s s := by
  intro p _
  cases p <;> simp [Keeps]

theorem KeepsAllBut.trans {ps : List Part} {s t u : State} (h : KeepsAllBut ps s t) (h' : KeepsAllBut ps t u) :
    KeepsAllBut ps s u := by
  intro p hp
  have h1 := h p hp
  have h2 := h' p hp
  cases p <;> simp_all [Keeps]

theorem KeepsAllBut.mono {ps qs : List Part} {s t : State} (h : KeepsAllBut ps s t) (hq : ps ⊆ qs) : KeepsAllBut qs s t :=
  fun p hp => h p fun hmem => hp (hq hmem)

/-! ### One slot -/

/-- The state an instruction's meaning starts from. -/
theorem fetched_eq (s : State) : s.fetched = (s.setOut (s.out ++ [.trace s.fetchWord])).setPc (s.pc + 2) := rfl

/-- A slot: nothing while faulted, a no-op past the end of memory and for UNDEFINED, else the instruction. -/
theorem executeOne_cases {s t : State} (h : executeOne s = .next t) :
    (s.fault.cause ≠ .noFault ∧ t = s) ∨
    (s.fault.cause = .noFault ∧ 0xFFF ≤ s.pc.toNat ∧ t = s.setPc (s.pc + 2)) ∨
    (s.fault.cause = .noFault ∧ s.pc.toNat < 0xFFF ∧ decode s.fetchWord = .error (.undefinedWord s.fetchWord) ∧
      t = s.fetched) ∨
    (s.fault.cause = .noFault ∧ s.pc.toNat < 0xFFF ∧ ∃ i u, decode s.fetchWord = .ok i ∧
      exec i s.fetched = .next u ∧ t = u.setOut (u.out ++ regChanges s u)) := by
  unfold executeOne at h
  by_cases hf : s.fault.cause = .noFault
  · rw [if_pos hf] at h
    by_cases hp : s.pc.toNat ≥ 0xFFF
    · rw [if_pos hp] at h
      cases h
      exact .inr (.inl ⟨hf, hp, rfl⟩)
    · rw [if_neg hp] at h
      rcases decode_total s.fetchWord with ⟨i, hi⟩ | hu
      · rw [hi] at h
        cases he : exec i s.fetched with
        | next u =>
          simp only [he, finishSlot] at h
          cases h
          exact .inr (.inr (.inr ⟨hf, by omega, i, u, hi, he, rfl⟩))
        | fault r => exact nomatch r
        | refused r => simp only [he, finishSlot] at h; cases h
      · rw [hu] at h
        cases h
        exact .inr (.inr (.inl ⟨hf, by omega, hu, rfl⟩))
  · rw [if_neg hf] at h
    cases h
    exact .inl ⟨hf, rfl⟩

theorem executeOne_faulted {s : State} (h : s.fault.cause ≠ .noFault) : executeOne s = .next s := by
  simp [executeOne, h]

theorem executeOne_pastEnd {s : State} (h : s.fault.cause = .noFault) (hp : 0xFFF ≤ s.pc.toNat) :
    executeOne s = .next (s.setPc (s.pc + 2)) := by
  simp [executeOne, h, hp]

theorem executeOne_undefined {s : State} (h : s.fault.cause = .noFault) (hp : s.pc.toNat ≤ 0xFFE)
    {e : DecodeReject} (hd : decode s.fetchWord = .error e) : executeOne s = .next s.fetched := by
  simp [executeOne, h, hd, show ¬ 4095 ≤ s.pc.toNat by omega]

theorem executeOne_instr {s : State} (h : s.fault.cause = .noFault) (hp : s.pc.toNat ≤ 0xFFE) {i : Instr}
    (hd : decode s.fetchWord = .ok i) : executeOne s = finishSlot s (exec i s.fetched) := by
  simp [executeOne, h, hd, show ¬ 4095 ≤ s.pc.toNat by omega]

/-- A slot always answers a next state. -/
theorem executeOne_next (s : State) : ∃ t, executeOne s = .next t := by
  by_cases hf : s.fault.cause = .noFault
  · by_cases hp : s.pc.toNat ≤ 0xFFE
    · rcases decode_total s.fetchWord with ⟨i, hi⟩ | hu
      · obtain ⟨t, ht⟩ := exec_next i s.fetched
        exact ⟨_, by rw [executeOne_instr hf hp hi, ht]; rfl⟩
      · exact ⟨_, executeOne_undefined hf hp hu⟩
    · exact ⟨_, executeOne_pastEnd hf (by omega)⟩
  · exact ⟨_, executeOne_faulted hf⟩

/-- The core's move: a slot of the running tick, or a TICK at the boundary. -/
theorem coreMove_tick {s : State} (h : s.slotsLeft = 0) : coreMove s = .next s.tick := by
  simp [coreMove, h]

theorem coreMove_slot {s : State} {n : Nat} (h : s.slotsLeft = n + 1) : coreMove s = executeOne (s.setSlotsLeft n) := by
  simp [coreMove, h]

/-- The tick: both timers decay and the slots are counted out, or nothing at all. -/
theorem tick_running {s : State} (h : s.runState = .running) (hf : s.fault.cause = .noFault) :
    s.tick = ((s.setDt (timerTick s.dt)).setSt (timerTick s.st)).setSlotsLeft s.config.tickRate := by
  simp [State.tick, h, hf]

theorem tick_idle {s : State} (h : s.runState ≠ .running ∨ s.fault.cause ≠ .noFault) : s.tick = s := by
  unfold State.tick
  rw [if_neg]
  rintro ⟨h1, h2⟩
  rcases h with h | h <;> contradiction

/-- A timer that a tick lowers: less 1, floor at 0 (spec 60_exceptions R121). -/
theorem timerTick_toNat (x : Byte) : (timerTick x).toNat = x.toNat - 1 := by
  unfold timerTick
  split
  · simp_all
  · rename_i h
    have : x.toNat ≠ 0 := fun e => h (BitVec.eq_of_toNat_eq (by simpa using e))
    have := x.isLt
    rw [BitVec.toNat_sub]
    simp
    omega

/-! ### Who moves -/

theorem turn_quiet {s : State} (h : s.script = []) : s.turn = .core s := by simp [State.turn, h]

theorem turn_pass {s : State} {rest : List HostMove} (h : s.script = .pass :: rest) :
    s.turn = .core (s.setScript rest) := by simp [State.turn, h]

theorem turn_keypad {s : State} {keys : BitVec 16} {rest : List HostMove} (h : s.script = .keypad keys :: rest) :
    s.turn = .host ((s.setScript rest).setKeypad keys) := by simp [State.turn, h]

theorem turn_command {s : State} {c : Command} {rest : List HostMove} (h : s.script = .command c :: rest)
    (hb : s.slotsLeft = 0) : s.turn = .host ((s.setScript rest).obey c) := by simp [State.turn, h, hb]

theorem turn_command_waits {s : State} {c : Command} {rest : List HostMove} (h : s.script = .command c :: rest)
    (hb : s.slotsLeft ≠ 0) : s.turn = .core s := by simp [State.turn, h, hb]

/-- When the core moves, nothing but the script has changed. -/
theorem turn_core {s t : State} (h : s.turn = .core t) : ∃ rest, t = s.setScript rest := by
  unfold State.turn at h
  split at h
  · cases h; exact ⟨s.script, rfl⟩
  · cases h; exact ⟨_, rfl⟩
  · cases h
  · split at h
    · cases h
    · cases h; exact ⟨s.script, rfl⟩

/-- When the host moves, it sets the keypad, or at a tick boundary issues a command. -/
theorem turn_host {s t : State} (h : s.turn = .host t) :
    (∃ keys rest, s.script = .keypad keys :: rest ∧ t = (s.setScript rest).setKeypad keys) ∨
    (∃ c rest, s.script = .command c :: rest ∧ s.slotsLeft = 0 ∧ t = (s.setScript rest).obey c) := by
  unfold State.turn at h
  split at h
  · cases h
  · cases h
  · cases h; exact .inl ⟨_, _, ‹_›, rfl⟩
  · split at h
    · cases h; exact .inr ⟨_, _, ‹_›, ‹_›, rfl⟩
    · cases h

theorem step_host {s t : State} (h : (s.setOut []).turn = .host t) : step s = .next t := by
  simp [step, takeTurn, h]

theorem step_core {s t : State} (h : (s.setOut []).turn = .core t) : step s = coreMove t := by
  simp [step, takeTurn, h]

/-- Everything a step can do: the host moves, a TICK comes at the boundary, or a slot runs. -/
theorem step_cases {s t : State} (h : step s = .next t) :
    ((s.setOut []).turn = .host t) ∨
    (∃ u, (s.setOut []).turn = .core u ∧ u.slotsLeft = 0 ∧ t = u.tick) ∨
    (∃ u n, (s.setOut []).turn = .core u ∧ u.slotsLeft = n + 1 ∧ executeOne (u.setSlotsLeft n) = .next t) := by
  cases hturn : (s.setOut []).turn with
  | host u => rw [step_host hturn] at h; cases h; exact .inl rfl
  | core u =>
    rw [step_core hturn] at h
    cases hs : u.slotsLeft with
    | zero => rw [coreMove_tick hs] at h; cases h; exact .inr (.inl ⟨u, rfl, hs, rfl⟩)
    | succ n => rw [coreMove_slot hs] at h; exact .inr (.inr ⟨u, n, rfl, hs, h⟩)

/-! ### Reset and the commands -/

/-- A change of the configuration that the stack fits into is made. -/
theorem configure_fits {s : State} {c : Config} (h : StackFits c.stackDepth s) : s.configure c = s.setConfig c := by
  simp [State.configure, (depthAllowed_iff _ _).2 h]

/-- Any other changes nothing. -/
theorem configure_tooSmall {s : State} {c : Config} (h : ¬ StackFits c.stackDepth s) : s.configure c = s := by
  unfold State.configure
  rw [if_neg fun e => h ((depthAllowed_iff _ _).1 e)]

/-- However the configuration is changed, the stack is within the bound after. -/
theorem withinDepth_configure {s : State} (h : s.WithinDepth) (c : Config) : (s.configure c).WithinDepth := by
  by_cases hc : StackFits c.stackDepth s
  · rw [configure_fits hc]
    exact hc
  · rw [configure_tooSmall hc]
    exact h

@[simp] theorem resetAll_reg (s : State) (r : Reg) : s.resetAll.reg r = 0x00 := by
  simp [State.resetAll, State.reg]

theorem resetAll_memRead (s : State) (a : Nat) : s.resetAll.memRead a = (Memory.ofReset s.config.font).read a := rfl

theorem wf_resetAll (s : State) : s.resetAll.mem.wf = true := Memory.wf_ofReset _

/-- A reset leaves the reset values in every field it sets. -/
theorem resetButMemory_resetAll (s : State) : s.resetAll.ResetButMemory where
  regs := by simp
  index := rfl
  pc := rfl
  stack := rfl
  dt := rfl
  st := rfl
  fb := pixel_blank
  fault := rfl

end Sys2Proof.Machine
end

