-- ==== Sys2Proof/Laws/PerInstr.lean ====
section
/-! SUPPORT. Per instruction: the word of every instruction has the fixed bits that its row of spec 30_encoding R61
gives (written here from spec/opcode_table.json, apart from the decoder's table). -/

namespace Sys2Proof.Laws.FixedBits

open Sys2Proof

/-- `match` and `mask` of the instruction's row. -/
def rowBits : Instr → Word × Word
  | .cls => (0x00E0, 0xFFFF)
  | .ret => (0x00EE, 0xFFFF)
  | .jp _ => (0x1000, 0xF000)
  | .call _ => (0x2000, 0xF000)
  | .seImm _ _ => (0x3000, 0xF000)
  | .sneImm _ _ => (0x4000, 0xF000)
  | .seReg _ _ _ => (0x5000, 0xF000)
  | .ldImm _ _ => (0x6000, 0xF000)
  | .addImm _ _ => (0x7000, 0xF000)
  | .ldReg _ _ => (0x8000, 0xF00F)
  | .orReg _ _ => (0x8001, 0xF00F)
  | .andReg _ _ => (0x8002, 0xF00F)
  | .xorReg _ _ => (0x8003, 0xF00F)
  | .addReg _ _ => (0x8004, 0xF00F)
  | .subReg _ _ => (0x8005, 0xF00F)
  | .shr _ _ => (0x8006, 0xF00F)
  | .subn _ _ => (0x8007, 0xF00F)
  | .shl _ _ => (0x800E, 0xF00F)
  | .sneReg _ _ _ => (0x9000, 0xF000)
  | .ldI _ => (0xA000, 0xF000)
  | .jpV0 _ => (0xB000, 0xF000)
  | .rnd _ _ => (0xC000, 0xF000)
  | .drw _ _ _ => (0xD000, 0xF000)
  | .skp _ => (0xE09E, 0xF0FF)
  | .sknp _ => (0xE0A1, 0xF0FF)
  | .ldVxDt _ => (0xF007, 0xF0FF)
  | .ldVxK _ => (0xF00A, 0xF0FF)
  | .ldDtVx _ => (0xF015, 0xF0FF)
  | .ldStVx _ => (0xF018, 0xF0FF)
  | .addI _ => (0xF01E, 0xF0FF)
  | .ldF _ => (0xF029, 0xF0FF)
  | .ldB _ => (0xF033, 0xF0FF)
  | .ldMemVx _ => (0xF055, 0xF0FF)
  | .ldVxMem _ => (0xF065, 0xF0FF)

/-- The encoded word has the fixed bits of its row. -/
def Statement (i : Instr) : Prop := encode i &&& (rowBits i).2 = (rowBits i).1

theorem formatA_fixed (top : Nibble) (nnn : Addr12) (w : Word) (h : ofNibbles top 0 0 0 = w) :
    formatA top nnn &&& 0xF000 = w := by
  rw [formatA_eq, show (0xF000 : Word) = ofNibbles 0xF 0 0 0 from rfl, ofNibbles_and, ← h]
  simp

theorem formatB_fixed (top : Nibble) (x : Reg) (kk : Byte) (w : Word) (h : ofNibbles top 0 0 0 = w) :
    formatB top x kk &&& 0xF000 = w := by
  rw [formatB_eq, show (0xF000 : Word) = ofNibbles 0xF 0 0 0 from rfl, ofNibbles_and, ← h]
  simp

theorem formatX_fixed (top : Nibble) (x : Reg) (kk : Byte) (w : Word)
    (h : ofNibbles top 0 (kk.extractLsb' 4 4) (kk.extractLsb' 0 4) = w) : formatB top x kk &&& 0xF0FF = w := by
  rw [formatB_eq, show (0xF0FF : Word) = ofNibbles 0xF 0 0xF 0xF from rfl, ofNibbles_and, ← h]
  simp

theorem formatR_fixed (top : Nibble) (x y : Reg) (low : Nibble) (w : Word) (h : ofNibbles top 0 0 low = w) :
    formatR top x y low &&& 0xF00F = w := by
  rw [formatR_eq, show (0xF00F : Word) = ofNibbles 0xF 0 0 0xF from rfl, ofNibbles_and, ← h]
  simp

theorem formatD_fixed (top : Nibble) (x y : Reg) (low : Nibble) (w : Word) (h : ofNibbles top 0 0 0 = w) :
    formatR top x y low &&& 0xF000 = w := by
  rw [formatR_eq, show (0xF000 : Word) = ofNibbles 0xF 0 0 0 from rfl, ofNibbles_and, ← h]
  simp

theorem cls : Statement .cls := rfl
theorem ret : Statement .ret := rfl
theorem jp (nnn : Addr12) : Statement (.jp nnn) := formatA_fixed _ _ _ rfl
theorem call (nnn : Addr12) : Statement (.call nnn) := formatA_fixed _ _ _ rfl
theorem seImm (x : Reg) (kk : Byte) : Statement (.seImm x kk) := formatB_fixed _ _ _ _ rfl
theorem sneImm (x : Reg) (kk : Byte) : Statement (.sneImm x kk) := formatB_fixed _ _ _ _ rfl
theorem seReg (x y : Reg) (ignored : Nibble) : Statement (.seReg x y ignored) := formatD_fixed _ _ _ _ _ rfl
theorem ldImm (x : Reg) (kk : Byte) : Statement (.ldImm x kk) := formatB_fixed _ _ _ _ rfl
theorem addImm (x : Reg) (kk : Byte) : Statement (.addImm x kk) := formatB_fixed _ _ _ _ rfl
theorem ldReg (x y : Reg) : Statement (.ldReg x y) := formatR_fixed _ _ _ _ _ rfl
theorem orReg (x y : Reg) : Statement (.orReg x y) := formatR_fixed _ _ _ _ _ rfl
theorem andReg (x y : Reg) : Statement (.andReg x y) := formatR_fixed _ _ _ _ _ rfl
theorem xorReg (x y : Reg) : Statement (.xorReg x y) := formatR_fixed _ _ _ _ _ rfl
theorem addReg (x y : Reg) : Statement (.addReg x y) := formatR_fixed _ _ _ _ _ rfl
theorem subReg (x y : Reg) : Statement (.subReg x y) := formatR_fixed _ _ _ _ _ rfl
theorem shr (x y : Reg) : Statement (.shr x y) := formatR_fixed _ _ _ _ _ rfl
theorem subn (x y : Reg) : Statement (.subn x y) := formatR_fixed _ _ _ _ _ rfl
theorem shl (x y : Reg) : Statement (.shl x y) := formatR_fixed _ _ _ _ _ rfl
theorem sneReg (x y : Reg) (ignored : Nibble) : Statement (.sneReg x y ignored) := formatD_fixed _ _ _ _ _ rfl
theorem ldI (nnn : Addr12) : Statement (.ldI nnn) := formatA_fixed _ _ _ rfl
theorem jpV0 (nnn : Addr12) : Statement (.jpV0 nnn) := formatA_fixed _ _ _ rfl
theorem rnd (x : Reg) (kk : Byte) : Statement (.rnd x kk) := formatB_fixed _ _ _ _ rfl
theorem drw (x y : Reg) (n : Nat) : Statement (.drw x y n) := formatD_fixed _ _ _ _ _ rfl
theorem skp (x : Reg) : Statement (.skp x) := formatX_fixed _ _ _ _ rfl
theorem sknp (x : Reg) : Statement (.sknp x) := formatX_fixed _ _ _ _ rfl
theorem ldVxDt (x : Reg) : Statement (.ldVxDt x) := formatX_fixed _ _ _ _ rfl
theorem ldVxK (x : Reg) : Statement (.ldVxK x) := formatX_fixed _ _ _ _ rfl
theorem ldDtVx (x : Reg) : Statement (.ldDtVx x) := formatX_fixed _ _ _ _ rfl
theorem ldStVx (x : Reg) : Statement (.ldStVx x) := formatX_fixed _ _ _ _ rfl
theorem addI (x : Reg) : Statement (.addI x) := formatX_fixed _ _ _ _ rfl
theorem ldF (x : Reg) : Statement (.ldF x) := formatX_fixed _ _ _ _ rfl
theorem ldB (x : Reg) : Statement (.ldB x) := formatX_fixed _ _ _ _ rfl
theorem ldMemVx (x : Reg) : Statement (.ldMemVx x) := formatX_fixed _ _ _ _ rfl
theorem ldVxMem (x : Reg) : Statement (.ldVxMem x) := formatX_fixed _ _ _ _ rfl

end Sys2Proof.Laws.FixedBits
end

