-- ==== Sys2Proof/Tests/Slice0.lean ====
section
/-! SUPPORT. The model's own tests: well-formedness, decoding of words written out from spec 30_encoding, single
steps with the results of spec 95_test_vectors (named in each comment), and for every obligation a witness that its
hypotheses can be met. -/

namespace Sys2Proof.Tests

open Sys2Proof Sys2Proof.Machine Sys2Proof.Claims

/-! ### Well-formedness -/

/-- The one check: a sprite height is a 4-bit count. -/
theorem test_wellFormed_refuses_height_16 : Instr.wellFormed (.drw 0 0 16) = false := by decide
theorem test_wellFormed_takes_height_15 : Instr.wellFormed (.drw 0 0 15) = true := by decide

/-! ### Decoding, from the patterns and formats of 30_encoding R58, R61 -/

theorem test_decode_flow :
    decode 0b0000000011101110 = .ok .ret ∧ decode 0b0001001000001000 = .ok (.jp 0x208) ∧
    decode 0b0010001000001110 = .ok (.call 0x20E) ∧ decode 0b1011001100000000 = .ok (.jpV0 0x300) ∧
    decode 0b0011001100010000 = .ok (.seImm 3 0x10) ∧ decode 0b0100001100010001 = .ok (.sneImm 3 0x11) ∧
    decode 0b0101000100100000 = .ok (.seReg 1 2 0) ∧ decode 0b1001000100101010 = .ok (.sneReg 1 2 0xA) := by decide

theorem test_decode_alu :
    decode 0b0110100000010100 = .ok (.ldImm 8 0x14) ∧ decode 0b0111000111111111 = .ok (.addImm 1 0xFF) ∧
    decode 0b1000000100100000 = .ok (.ldReg 1 2) ∧ decode 0b1000000100100001 = .ok (.orReg 1 2) ∧
    decode 0b1000000100100010 = .ok (.andReg 1 2) ∧ decode 0b1000000100100011 = .ok (.xorReg 1 2) ∧
    decode 0b1000100110000100 = .ok (.addReg 9 8) ∧ decode 0b1000000100100101 = .ok (.subReg 1 2) ∧
    decode 0b1000000100100110 = .ok (.shr 1 2) ∧ decode 0b1000000100100111 = .ok (.subn 1 2) ∧
    decode 0b1000000100101110 = .ok (.shl 1 2) ∧ decode 0b1100001100001111 = .ok (.rnd 3 0x0F) := by decide

theorem test_decode_index_memory :
    decode 0b1010001001010000 = .ok (.ldI 0x250) ∧ decode 0b1111001000011110 = .ok (.addI 2) ∧
    decode 0b1111000000101001 = .ok (.ldF 0) ∧ decode 0b1111000000110011 = .ok (.ldB 0) ∧
    decode 0b1111001101010101 = .ok (.ldMemVx 3) ∧ decode 0b1111001101100101 = .ok (.ldVxMem 3) := by decide

theorem test_decode_display :
    decode 0b0000000011100000 = .ok .cls ∧ decode 0b1101000100101111 = .ok (.drw 1 2 15) := by decide

theorem test_decode_timers_keypad :
    decode 0b1110010110011110 = .ok (.skp 5) ∧ decode 0b1110010110100001 = .ok (.sknp 5) ∧
    decode 0b1111001100000111 = .ok (.ldVxDt 3) ∧ decode 0b1111001100001010 = .ok (.ldVxK 3) ∧
    decode 0b1111000000010101 = .ok (.ldDtVx 0) ∧ decode 0b1111000100011000 = .ok (.ldStVx 1) := by decide

/-- 30_encoding R62, R64, R65 and vector X7: these are UNDEFINED. -/
theorem test_decode_undefined :
    decode 0x8008 = .error (.undefinedWord 0x8008) ∧ decode 0x800F = .error (.undefinedWord 0x800F) ∧
    decode 0xE000 = .error (.undefinedWord 0xE000) ∧ decode 0xF0FF = .error (.undefinedWord 0xF0FF) ∧
    decode 0x0123 = .error (.undefinedWord 0x0123) ∧ decode 0x00FD = .error (.undefinedWord 0x00FD) ∧
    decode 0x00E1 = .error (.undefinedWord 0x00E1) := by decide

/-- One byte is no instruction (R57). -/
theorem test_decode_truncated : decodeBytes [0x00] = .error .truncated := by decide

theorem test_decodeTableWord :
    decodeTableWord 16 0xD12F = some (.drw 1 2 15) ∧ decodeTableWord 16 0x0123 = none := by decide

/-! ### Single steps -/

/-- The machine after reset with the word `op` under the next fetch. -/
def slot (op : Nat) : State := State.reset.withFetchWord 16 op

/-- The same with some registers set. -/
def slotWith (op : Nat) (regs : List (Reg × Byte)) : State := regs.foldl (fun s p => s.setReg p.1 p.2) (slot op)

/-- What a step leaves, as `f` reads it. -/
def after {α : Type} (s : State) (f : State → α) : Option α :=
  match step s with
  | .next t => some (f t)
  | .fault _ => none
  | .refused _ => none

/-- Vectors X1, F7. -/
theorem test_jp_self : after (slot 0x1200) (fun t => (t.pc, t.out)) = some (0x200, [.trace 0x1200]) := by decide

/-- Vector X2. -/
theorem test_undefined_noop : after (slot 0x0000) (fun t => (t.pc, t.out)) = some (0x202, [.trace 0x0000]) := by decide

/-- Vectors X4, X5. -/
theorem test_fetch_past_end :
    after ((slot 0x1200).setPc 0x0FFF) (fun t => (t.pc, t.out)) = some (0x1001, []) ∧
    after ((slot 0x1200).setPc 0xFFFF) (fun t => (t.pc, t.out)) = some (0x0001, []) := by decide

/-- Vector X3: a fetch at 0xFFE is an ordinary one. -/
theorem test_fetch_at_end :
    after ((State.reset.setPc 0xFFE).withFetchWord 16 0x1200) (fun t => (t.pc, t.out)) = some (0x200, [.trace 0x1200]) := by
  decide

/-- Vector X6: an odd pc. -/
theorem test_fetch_odd :
    after ((State.reset.setPc 0x201).withFetchWord 16 0x60AB) (fun t => (t.pc, t.reg 0)) = some (0x203, 0xAB) := by decide

/-- Vectors F1, F2. -/
theorem test_ret :
    after ((slot 0x00EE).setStack [0x206]) (fun t => (t.pc, t.stack)) = some (0x206, []) ∧
    after (slotWith 0x00EE [(3, 7)]) (fun t => (t.pc, t.stack, t.reg 3)) = some (0x200, [], 7) := by decide

/-- Vectors F3, F6. -/
theorem test_call :
    after (slot 0x2400) (fun t => (t.pc, t.stack)) = some (0x400, [0x202]) ∧
    after ((State.reset.setPc 0xFFE).withFetchWord 16 0x2400) (fun t => (t.pc, t.stack)) = some (0x400, [0x1000]) := by
  decide

/-- A stack of 16 entries. -/
def fullStack : List Word := List.replicate 16 0x202

/-- Vector F4. -/
theorem test_call_full :
    after ((slot 0x2400).setStack fullStack) (fun t => (t.pc, t.stack, t.fault)) =
      some (0x200, fullStack, ⟨.stackOverflow, 0x200, 0x2400⟩) := by decide

/-- Vector F8: the sum does not wrap at 12 bits. -/
theorem test_jpV0 : after (slotWith 0xBFFF [(0, 0xFF)]) (fun t => t.pc) = some 0x10FE := by decide

/-- Vector F9. -/
theorem test_jpV0_vx :
    after ((slotWith 0xB300 [(0, 0x04), (3, 0x10)]).setConfig { Config.standard with jumpQuirk := .vx }) (fun t => t.pc) =
      some 0x310 := by decide

/-- Vector F10. -/
theorem test_seImm :
    after (slotWith 0x3310 [(3, 0x10)]) (fun t => t.pc) = some 0x204 ∧
    after (slotWith 0x3311 [(3, 0x10)]) (fun t => t.pc) = some 0x202 := by decide

/-- Vector F11. -/
theorem test_sneImm :
    after (slotWith 0x4310 [(3, 0x10)]) (fun t => t.pc) = some 0x202 ∧
    after (slotWith 0x4311 [(3, 0x10)]) (fun t => t.pc) = some 0x204 := by decide

/-- Vectors F12, F13. -/
theorem test_seReg :
    after (slotWith 0x512F [(1, 7), (2, 7)]) (fun t => t.pc) = some 0x204 ∧
    after (slotWith 0x5120 [(1, 7), (2, 8)]) (fun t => t.pc) = some 0x202 := by decide

/-- Vectors F13, F14. -/
theorem test_sneReg :
    after (slotWith 0x912A [(1, 7), (2, 8)]) (fun t => t.pc) = some 0x204 ∧
    after (slotWith 0x9110 [(1, 7)]) (fun t => t.pc) = some 0x202 := by decide

/-- Vector A1. -/
theorem test_ldImm : after (slot 0x6FAB) (fun t => (t.reg 15, t.pc)) = some (0xAB, 0x202) := by decide

/-- Vectors A2, A3. -/
theorem test_addImm :
    after (slotWith 0x7101 [(1, 0xFF)]) (fun t => (t.reg 1, t.reg 15)) = some (0x00, 0x00) ∧
    after (slotWith 0x7FFF [(15, 0x10)]) (fun t => t.reg 15) = some 0x0F := by decide

/-- The example of 42_alu R86. -/
theorem test_ldReg : after (slotWith 0x8120 [(2, 0x33)]) (fun t => (t.reg 1, t.reg 2)) = some (0x33, 0x33) := by decide

/-- Vector A5. -/
theorem test_logic :
    after (slotWith 0x8121 [(1, 0x0C), (2, 0x0A), (15, 0x55)]) (fun t => (t.reg 1, t.reg 15)) = some (0x0E, 0x55) ∧
    after (slotWith 0x8122 [(1, 0x0C), (2, 0x0A), (15, 0x55)]) (fun t => (t.reg 1, t.reg 15)) = some (0x08, 0x55) ∧
    after (slotWith 0x8123 [(1, 0x0C), (2, 0x0A), (15, 0x55)]) (fun t => (t.reg 1, t.reg 15)) = some (0x06, 0x55) := by
  decide

/-- Vectors A8, A10. -/
theorem test_addReg :
    after (slotWith 0x8124 [(1, 0xFF), (2, 0xFF)]) (fun t => (t.reg 1, t.reg 15)) = some (0xFE, 0x01) ∧
    after (slotWith 0x8F04 [(15, 0x80), (0, 0x80)]) (fun t => t.reg 15) = some 0x01 := by decide

/-- Vector A11: VF is read before it is written. -/
theorem test_addReg_vf_source :
    after (slotWith 0x81F4 [(1, 0x10), (15, 0x01)]) (fun t => (t.reg 1, t.reg 15)) = some (0x11, 0x00) := by decide

/-- Vectors A13, A14. -/
theorem test_subReg :
    after (slotWith 0x8125 [(1, 0x05), (2, 0x05)]) (fun t => (t.reg 1, t.reg 15)) = some (0x00, 0x01) ∧
    after (slotWith 0x8125 [(1, 0x03), (2, 0x05)]) (fun t => (t.reg 1, t.reg 15)) = some (0xFE, 0x00) := by decide

/-- Vectors A17, A18. -/
theorem test_subn :
    after (slotWith 0x8127 [(1, 0x03), (2, 0x0A)]) (fun t => (t.reg 1, t.reg 15)) = some (0x07, 0x01) ∧
    after (slotWith 0x8127 [(1, 0x05), (2, 0x03)]) (fun t => (t.reg 1, t.reg 15)) = some (0xFE, 0x00) := by decide

/-- The configuration in which the shifts read Vy. -/
def fromVy : Config := { Config.standard with shiftQuirk := .fromVy }

/-- Vectors A19, A20. -/
theorem test_shr :
    after (slotWith 0x8106 [(1, 0x81)]) (fun t => (t.reg 1, t.reg 15)) = some (0x40, 0x01) ∧
    after ((slotWith 0x8126 [(1, 0x81), (2, 0x04)]).setConfig fromVy) (fun t => (t.reg 1, t.reg 15)) = some (0x02, 0x00) := by
  decide

/-- Vectors A21, A22. -/
theorem test_shl :
    after (slotWith 0x810E [(1, 0x81)]) (fun t => (t.reg 1, t.reg 15)) = some (0x02, 0x01) ∧
    after ((slotWith 0x812E [(2, 0x81)]).setConfig fromVy) (fun t => (t.reg 1, t.reg 15)) = some (0x02, 0x01) := by decide

/-- Vector A26, the byte waiting on the RND input. -/
theorem test_rnd : after ((slot 0xC30F).setRndIn [0xA7, 0x11]) (fun t => (t.reg 3, t.rndIn)) = some (0x07, [0x11]) := by
  decide

/-- Vector M1. -/
theorem test_ldI : after (slot 0xAFFF) (fun t => t.index) = some 0x0FFF := by decide

/-- Vectors M2, M3. -/
theorem test_addI :
    after ((slotWith 0xF21E [(2, 0x01), (15, 0x33)]).setIndex 0x0FFF) (fun t => (t.index, t.reg 15)) = some (0x1000, 0x33) ∧
    after ((slotWith 0xF01E [(0, 0x01)]).setIndex 0xFFFF) (fun t => t.index) = some 0x0000 := by decide

/-- The configuration in which Fx29 points at glyphs of five bytes. -/
def strideFive : Config := { Config.standard with glyphStride := .five }

/-- Vector M4. -/
theorem test_ldF :
    after (slotWith 0xF029 [(0, 0x1A)]) (fun t => t.index) = some 0x05A ∧
    after ((slotWith 0xF029 [(0, 0x1A)]).setConfig strideFive) (fun t => t.index) = some 0x082 := by decide

/-- Vectors M6, M8. -/
theorem test_ldB :
    after ((slotWith 0xF033 [(0, 0xFF)]).setIndex 0x300) (fun t => (t.memRead 0x300, t.memRead 0x301, t.memRead 0x302)) =
      some (2, 5, 5) ∧
    after ((slotWith 0xF033 [(0, 0x7B)]).setIndex 0xFFE) (fun t => (t.memRead 0xFFE, t.memRead 0xFFF, t.memRead 0x1000)) =
      some (1, 2, 0) := by decide

/-- Vectors M10, M13. -/
theorem test_ldMemVx :
    after ((slotWith 0xF055 [(0, 9), (1, 8)]).setIndex 0x300) (fun t => (t.memRead 0x300, t.memRead 0x301, t.index)) =
      some (9, 0, 0x300) ∧
    after ((slotWith 0xF055 [(0, 0x55)]).setIndex 0x2000) (fun t => t.mem) = some (slot 0xF055).mem := by decide

/-- Vector M11: a read above 0xFFF. -/
theorem test_ldVxMem :
    after (((slotWith 0xF165 [(1, 7)]).memWrite 0xFFF 0x42).setIndex 0xFFF) (fun t => (t.reg 0, t.reg 1)) =
      some (0x42, 0x00) := by decide

/-- Vector D9. -/
theorem test_cls :
    after (((slotWith 0x00E0 [(15, 7)]).setFb (Vector.replicate 32 0xFF))) (fun t => (t.fb, t.reg 15)) =
      some (Framebuffer.blank, 7) := by decide

/-- Vector D4: clipping at the right edge. -/
theorem test_drw_clips :
    after (((slotWith 0xD011 [(0, 0x3E)]).memWrite 0x300 0xFF).setIndex 0x300)
      (fun t => (t.fb.pixel 61 0, t.fb.pixel 62 0, t.fb.pixel 63 0, t.fb.pixel 0 0, t.reg 15)) =
      some (false, true, true, false, 0x00) := by decide

/-- Case 15 of vector L1-8b: the exclusive or, and a collision. -/
theorem test_drw_collides :
    after ((((slotWith 0xD011 [(1, 0)]).memWrite 0x300 0xC0).setIndex 0x300).setFb
        (Framebuffer.blank.setPixel 0 0 true))
      (fun t => (t.fb.pixel 0 0, t.fb.pixel 1 0, t.reg 15)) = some (false, true, 0x01) := by decide

/-- Vectors K1, K3. -/
theorem test_skp :
    after ((slotWith 0xE59E [(5, 0x0A)]).setKeypad 0x0400) (fun t => t.pc) = some 0x204 ∧
    after ((slotWith 0xE59E [(5, 0x10)]).setKeypad 0xFFFF) (fun t => t.pc) = some 0x202 := by decide

/-- Vectors K1, K3. -/
theorem test_sknp :
    after ((slotWith 0xE5A1 [(5, 0x0A)]).setKeypad 0x0400) (fun t => t.pc) = some 0x202 ∧
    after ((slotWith 0xE5A1 [(5, 0x10)]).setKeypad 0xFFFF) (fun t => t.pc) = some 0x204 := by decide

/-- Vector K4. -/
theorem test_ldVxK_waits :
    after (slotWith 0xF30A [(3, 9)]) (fun t => (t.pc, t.reg 3, t.out)) = some (0x200, 9, [.trace 0xF30A]) := by decide

/-- Vectors K5, K6. -/
theorem test_ldVxK_takes :
    after ((slot 0xF30A).setKeypad 0x0420) (fun t => (t.pc, t.reg 3)) = some (0x202, 5) ∧
    after ((slotWith 0xFF0A [(15, 9)]).setKeypad 0x8001) (fun t => t.reg 15) = some 0 := by decide

/-- Vectors K7, K8, K9. -/
theorem test_timers :
    after ((slot 0xF307).setDt 0x3C) (fun t => t.reg 3) = some 0x3C ∧
    after (slotWith 0xF015 [(0, 0x41)]) (fun t => t.dt) = some 0x41 ∧
    after (slotWith 0xF118 [(1, 0x02)]) (fun t => t.st) = some 0x02 := by decide

/-! ### Ticks and the host -/

/-- Running, at a tick boundary. -/
def boundary : State := State.reset.setRunState .running

/-- Vector T1. -/
theorem test_tick : after (boundary.setSt 1) (fun t => (t.dt, t.st, t.slotsLeft)) = some (0, 0, 20) := by decide

/-- Vectors T2, T4. -/
theorem test_tick_idle :
    after ((boundary.setRunState .paused).setDt 5) (fun t => (t.dt, t.slotsLeft)) = some (5, 0) ∧
    after ((boundary.setFault ⟨.stackOverflow, 0x200, 0x2200⟩).setDt 5) (fun t => (t.dt, t.slotsLeft)) = some (5, 0) := by
  decide

/-- Vector T3. -/
theorem test_tick_rate_zero :
    after ((boundary.setConfig { Config.standard with tickRate := 0 }).setDt 5) (fun t => (t.dt, t.slotsLeft, t.pc)) =
      some (4, 0, 0x200) := by decide

/-- Vector T5. -/
theorem test_stop_clears_fault :
    after ((boundary.setFault ⟨.stackOverflow, 0x200, 0x2200⟩).setScript [.command .stop])
      (fun t => (t.fault, t.runState)) = some (⟨.noFault, 0, 0⟩, .stopped) := by decide

/-- Vectors T6, T7. -/
theorem test_commands_without_effect :
    after (State.reset.setScript [.command .togglePause]) (fun t => t.runState) = some .stopped ∧
    after ((boundary.setRunState .paused).setScript [.command .start]) (fun t => t.runState) = some .paused := by decide

/-- Vector T10. -/
theorem test_loadRom_paused :
    after (((boundary.setRunState .paused).setReg 0 9).setScript [.command (.loadRom [0x12, 0x00])])
      (fun t => (t.reg 0, t.runState, t.out, t.memRead 0x200)) = some (0, .stopped, [.loadStatus .ok], 0x12) := by decide

/-- Vector T11. -/
theorem test_loadRom_stopped :
    after ((State.reset.setMem (Memory.writeBytes [] 0x200 [0x11, 0x11, 0x22, 0x22])).setScript
        [.command (.loadRom [0x33, 0x33])])
      (fun t => (t.memRead 0x200, t.memRead 0x201, t.memRead 0x202, t.memRead 0x203)) = some (0x33, 0x33, 0x22, 0x22) := by
  decide

/-- A configuration as 10_state R34 lets the host set it, with room for `entries` return addresses. -/
def roomFor (entries : Nat) (h : 0 < entries) : Config := { Config.standard with stackDepth := .bounded entries h }

/-- 10_state R38, and log 11: STACK_DEPTH may be lowered to the depth of the stack, not below it. -/
theorem test_configure :
    after ((boundary.setStack [0x202, 0x204]).setScript [.command (.configure (roomFor 2 (by decide)))])
      (fun t => (t.config, t.stack)) = some (roomFor 2 (by decide), [0x202, 0x204]) ∧
    after ((boundary.setStack [0x202, 0x204]).setScript [.command (.configure (roomFor 1 (by decide)))])
      (fun t => (t.config, t.stack)) = some (Config.standard, [0x202, 0x204]) := by decide

/-- A command waits inside a tick, a keypad change does not (60_exceptions R126). -/
theorem test_host_moves :
    after ((slot 0x1200).setScript [.command .stop]) (fun t => (t.pc, t.runState, t.script)) =
      some (0x200, .running, [.command .stop]) ∧
    after ((slot 0x1200).setScript [.keypad 3]) (fun t => (t.keypad, t.slotsLeft)) = some (3, 1) := by decide

/-! ### Witnesses: the hypotheses of the obligations can be met -/

theorem not_full_reset : ¬ Full State.reset := fun ⟨_, p, _, h⟩ => by subst h; exact absurd p (by decide)

/-- A 2nnn under the next fetch, the stack full. -/
def overflowing : State := (slot 0x2400).setStack fullStack

theorem full_overflowing : Full overflowing := ⟨16, by decide, rfl, rfl⟩

/-- Every row of the opcode map has a word (the hypothesis of RowDecodes). -/
theorem witness_rows : ∀ r ∈ opcodeMap, r.pattern &&& r.mask = r.pattern := by decide

theorem witness_DecodeOfEncodeIsTheInstruction : Instr.wellFormed (.drw 15 15 15) = true := by decide

theorem witness_EncodeOfDecodeIsTheWord : decode 0xDFFF = .ok (.drw 15 15 15) := by decide

theorem witness_ReturnFromSubroutine : overflowing.stack = 0x202 :: List.replicate 15 0x202 ∧ (slot 0x00EE).stack = [] := by
  decide

theorem witness_CallSubroutine : ¬ Full State.reset ∧
    (Full (overflowing.setPc 0x202) ∧ (overflowing.setPc 0x202).pc = 0x200 + 2 ∧ decode 0x2400 = .ok (.call 0x400)) :=
  ⟨not_full_reset, full_overflowing, by decide⟩

theorem witness_JumpWithOffset : State.reset.config.jumpQuirk = .v0 ∧
    (State.reset.setConfig { Config.standard with jumpQuirk := .vx }).config.jumpQuirk = .vx := by decide

theorem witness_SkipOnImmediate : State.reset.reg 3 = 0x00 ∧ State.reset.reg 3 ≠ 0xFF := by decide

theorem witness_SkipOnRegister : State.reset.reg 1 = State.reset.reg 2 ∧
    (State.reset.setReg 1 1).reg 1 ≠ (State.reset.setReg 1 1).reg 2 := by decide

theorem witness_flagged_destinations : (14 : Reg) ≠ regVF := by decide

theorem witness_ShiftsSetDroppedBit : State.reset.config.shiftQuirk = .inPlace ∧
    (State.reset.setConfig fromVy).config.shiftQuirk = .fromVy := by decide

theorem witness_RandomByteIsMasked : (State.reset.setRndIn [0xA7]).rndIn = [0xA7] ∧ State.reset.rndIn = [] := by decide

theorem witness_GlyphAddress : State.reset.config.glyphStride = .one ∧
    (State.reset.setConfig strideFive).config.glyphStride = .five := by decide

/-- The last byte that is written, and the first that is discarded. -/
theorem witness_StoreDecimalDigits : (State.reset.setIndex 0xFFD).mem.wf = true ∧
    (State.reset.setIndex 0xFFD).addrAt 2 ≤ 0xFFF ∧ ¬ (State.reset.setIndex 0xFFD).addrAt 3 ≤ 0xFFF ∧
    ((0xFFC : Nat) ≤ 0xFFF → (0xFFC ≠ (State.reset.setIndex 0xFFD).addrAt 0 ∧
      0xFFC ≠ (State.reset.setIndex 0xFFD).addrAt 1 ∧ 0xFFC ≠ (State.reset.setIndex 0xFFD).addrAt 2)) := by decide

theorem witness_StoreRegisters : (State.reset.setIndex 0xFF0).mem.wf = true ∧ (15 : Reg) ≤ 15 ∧
    (State.reset.setIndex 0xFF0).addrAt 15 ≤ 0xFFF ∧
    ((0xFEF : Nat) ≤ 0xFFF → ∀ r : Reg, r ≤ 15 → 0xFEF ≠ (State.reset.setIndex 0xFF0).addrAt r.val) := by decide

theorem witness_LoadRegisters : (State.reset.setIndex 0xFF1).addrAt 14 ≤ 0xFFF ∧
    (State.reset.setIndex 0xFF1).addrAt 15 > 0xFFF ∧ (15 : Reg) ≤ 15 ∧ ¬ (15 : Reg) ≤ 14 := by decide

theorem witness_StoreThenLoadRestores : ∃ s t u : State, s.mem.wf = true ∧ s.addrAt (3 : Reg).val ≤ 0xFFF ∧
    exec (.ldMemVx 3) s = .next t ∧ (∀ a, u.memRead a = t.memRead a) ∧ u.index = t.index ∧ u.reg 0 ≠ t.reg 0 :=
  ⟨State.reset.setIndex 0x300, (State.reset.setIndex 0x300).storeRegs (regsUpTo 3),
    ((State.reset.setIndex 0x300).storeRegs (regsUpTo 3)).setReg 0 7, by decide, by decide, rfl, fun _ => rfl, rfl, by decide⟩

theorem witness_MemoryReadAfterWrite : State.reset.mem.wf = true ∧ (0xFFF : Nat) ≤ 0xFFF ∧ (0x1000 : Nat) > 0xFFF := by
  decide

/-- A one-row sprite with its first bit set, drawn at (0, 0). -/
def sprite : State := ((slot 0xD011).memWrite 0x300 0x80).setIndex 0x300

theorem witness_DrawSpriteXorsAndCollides :
    Collides (sprite.setFb (Framebuffer.blank.setPixel 0 0 true)) 0 1 1 ∧ ¬ Collides (sprite.setFb Framebuffer.blank) 0 1 1 :=
  ⟨⟨0, 0, by decide⟩, fun ⟨_, _, _, _, h, _⟩ => by simp at h⟩

theorem witness_DrawingTwiceRestores : TurnsOn (sprite.setFb Framebuffer.blank) 0 1 1 ∧
    ¬ TurnsOn (sprite.setFb Framebuffer.blank) 0 1 0 ∧
    ∃ t, exec (.drw 0 1 1) (sprite.setFb Framebuffer.blank) = .next t ∧
      (t.reg 0).toNat % 64 = ((sprite.setFb Framebuffer.blank).reg 0).toNat % 64 ∧
      (t.reg 1).toNat % 32 = ((sprite.setFb Framebuffer.blank).reg 1).toNat % 32 :=
  ⟨⟨0, 0, by decide⟩,
   fun ⟨_, _, _, _, _, h⟩ => by simp only [spriteBit, Bool.and_eq_true, decide_eq_true_eq] at h; omega,
   _, rfl, by decide, by decide⟩

theorem witness_SkipOnKey : ((State.reset.setKeypad 0x8000).setReg 5 0x0F).reg 5 = 0x0F ∧
    (((State.reset.setKeypad 0x8000).setReg 5 0x0F).reg 5).toNat ≤ 0xF ∧
    ((State.reset.setKeypad 0x8000).setReg 5 0x0F).keypad.getLsbD 15 = true ∧
    ¬ (((State.reset.setKeypad 0xFFFF).setReg 5 0x10).reg 5).toNat ≤ 0xF := by decide

theorem witness_WaitForKey : (∀ k, k < 16 → State.reset.keypad.getLsbD k = false) ∧
    (State.reset.setKeypad 0x8000).keypad.getLsbD 15 = true ∧
    (∀ j, j < 15 → (State.reset.setKeypad 0x8000).keypad.getLsbD j = false) := by decide

/-- For InstructionsWriteOnlyTheirParts and InstructionsWriteOnlyTheirRegisters. -/
theorem witness_frames : exec (.addReg 1 2) State.reset = .next (State.reset.setResultThenFlag 1 0 false) ∧
    ¬ mayWriteReg (.addReg 1 2) 2 := ⟨rfl, by simp [mayWriteReg, regVF]⟩

theorem witness_KeypadIsReadByThreeInstructions :
    ¬ readsKeypad (.ldI 0x250) ∧ exec (.ldI 0x250) State.reset = .next (State.reset.setIndex 0x250) :=
  ⟨fun h => h, rfl⟩

theorem witness_HiddenStateIsNeverRead : AgreeOnRead State.reset (State.reset.setSt 1) ∧
    exec (.ldVxDt 1) State.reset = .next (State.reset.setReg 1 0) :=
  ⟨⟨rfl, rfl, rfl, rfl, rfl, rfl, rfl, rfl, rfl, rfl, rfl⟩, rfl⟩

theorem witness_OnlyFullCallFaults : ∃ t, exec (.call 0x400) overflowing = .next t ∧ t.fault ≠ overflowing.fault :=
  ⟨_, exec_call_full 0x400 ((stackFull_iff _).2 full_overflowing), by decide⟩

theorem witness_ReturnUndoesCall : ∃ t u : State, ¬ Full State.reset ∧ exec (.call 0x400) State.reset = .next t ∧
    u.stack = t.stack ∧ u.reg 0 ≠ t.reg 0 :=
  ⟨(State.reset.push State.reset.pc).setPc 0x400, ((State.reset.push State.reset.pc).setPc 0x400).setReg 0 7,
    not_full_reset, rfl, rfl, by decide⟩

/-- The slot a placed word runs in. -/
theorem slotNext_slot (op : Nat) : SlotNext (slot op) (((slot op).setOut []).setSlotsLeft 0) :=
  ⟨0, [], rfl, rfl, .inl ⟨rfl, rfl⟩⟩

theorem witness_StepRunsDecodedInstruction : ∃ u, SlotNext (slot 0x6105) u ∧ u.fault.cause = .noFault ∧
    u.pc.toNat ≤ 0xFFE ∧
    decode (wordOfBytes (u.memRead u.pc.toNat) (u.memRead (u.pc.toNat + 1))) = .ok (.ldImm 1 0x05) :=
  ⟨_, slotNext_slot 0x6105, by decide, by decide, by decide⟩

/-- The three scripts with which a step is a slot. -/
theorem witness_SlotNext : ∃ u v w, SlotNext (slot 0x1200) u ∧ SlotNext ((slot 0x1200).setScript [.pass, .pass]) v ∧
    SlotNext ((slot 0x1200).setScript [.command .stop]) w :=
  ⟨_, _, _, slotNext_slot 0x1200, ⟨0, [.pass], rfl, rfl, .inr (.inl rfl)⟩,
    ⟨0, [.command .stop], rfl, rfl, .inr (.inr ⟨.stop, [], rfl, rfl⟩)⟩⟩

theorem witness_NoOpSlots : (State.reset.setPc 0xFFF).fault.cause = .noFault ∧ (State.reset.setPc 0xFFF).pc.toNat ≥ 0xFFF ∧
    (State.reset.setPc 0xFFE).pc.toNat ≤ 0xFFE ∧
    decode (State.reset.setPc 0xFFE).fetchWord = .error (.undefinedWord (State.reset.setPc 0xFFE).fetchWord) := by decide

theorem witness_FaultIsPrecise : overflowing.fault.cause = .noFault ∧ overflowing.pc.toNat ≤ 0xFFE ∧
    decode overflowing.fetchWord = .ok (.call 0x400) ∧ Full overflowing :=
  ⟨by decide, by decide, by decide, full_overflowing⟩

/-- What the step of `slot 0x6105` leaves. -/
def loaded : State := ((((slot 0x6105).setSlotsLeft 0).setOut [.trace 0x6105, .regChange 1 5]).setPc 0x202).setReg 1 5

theorem step_slot : step (slot 0x6105) = .next loaded := rfl

theorem witness_RegisterChangesAreReported : ∃ u, SlotNext (slot 0x6105) u ∧ u.out = [] ∧
    step (slot 0x6105) = .next loaded ∧ loaded.reg 1 ≠ u.reg 1 :=
  ⟨_, slotNext_slot 0x6105, rfl, step_slot, by decide⟩

/-- A machine whose run has failed, inside a tick. -/
def faulted : State := (slot 0x2200).setFault ⟨.stackOverflow, 0x200, 0x2200⟩

theorem witness_FaultedCoreIsQuiescent : faulted.Faulted ∧ faulted.script = [] := ⟨by unfold State.Faulted; decide, rfl⟩

theorem witness_TickRunsItsSlots : boundary.slotsLeft = 0 ∧ boundary.script = [] ∧ boundary.runState = .running ∧
    ¬ boundary.Faulted ∧ State.reset.runState ≠ .running ∧ (boundary.setFault ⟨.stackOverflow, 0x200, 0x2200⟩).Faulted ∧
    20 ≤ boundary.config.tickRate := by unfold State.Faulted; decide

theorem witness_TimersChangeInsideATickOnlyByInstruction :
    after (slotWith 0xF015 [(0, 0x41)]) (fun t => t.dt) ≠ some (slotWith 0xF015 [(0, 0x41)]).dt ∧
    after (slotWith 0xF018 [(0, 0x41)]) (fun t => t.st) ≠ some (slotWith 0xF018 [(0, 0x41)]).st ∧
    (slotWith 0xF015 [(0, 0x41)]).slotsLeft ≠ 0 ∧ (slotWith 0xF018 [(0, 0x41)]).slotsLeft ≠ 0 := by decide

theorem witness_SpinChangesOnlyTimers : (slot 0x1200).Spinning ∧ (slot 0x1200).script = [] :=
  ⟨⟨by decide, by decide, 0x200, by decide, by decide⟩, rfl⟩

theorem witness_PauseResumesWhereItLeftOff : ∃ s : State, s.slotsLeft = 0 ∧ s.runState = .running ∧
    s.script = .command .togglePause :: (List.replicate 3 .pass ++ .command .togglePause :: []) :=
  ⟨boundary.setScript [.command .togglePause, .pass, .pass, .pass, .command .togglePause], rfl, rfl, rfl⟩

theorem witness_HostMovesLandWhereTheyMay : (boundary.setScript [.keypad 3]).script = .keypad 3 :: [] ∧
    (boundary.setScript [.command .stop]).script = .command .stop :: [] ∧ boundary.slotsLeft = 0 ∧
    ((slot 0x1200).setScript [.command .stop]).script = .command .stop :: [] ∧ (slot 0x1200).slotsLeft = 0 + 1 := by decide

theorem witness_OnlyTheHostChangesItsState :
    after (boundary.setScript [.keypad 3]) (fun t => t.keypad) ≠ some boundary.keypad ∧
    after (boundary.setScript [.command .togglePause]) (fun t => t.runState) ≠ some boundary.runState ∧
    after (boundary.setScript [.command (.configure fromVy)]) (fun t => t.config) ≠ some boundary.config := by decide

theorem witness_LoadRom : (List.replicate 3585 (0x00 : Byte)).length > 3584 ∧
    (List.replicate 3584 (0x00 : Byte)).length ≤ 3584 ∧ State.reset.mem.wf = true ∧ State.reset.runState = .stopped ∧
    boundary.runState ≠ .stopped :=
  ⟨by rw [List.length_replicate]; decide, by rw [List.length_replicate], by decide, by decide, by decide⟩

theorem witness_StopLoadStartIsReproducible : ([0x12, 0x00] : List Byte).length ≤ 3584 := by decide

/-- The invariant inside a tick, and a step from there. -/
theorem witness_EveryStepKeepsInvariant : (slot 0x6105).Inv ∧ step (slot 0x6105) = .next loaded :=
  ⟨⟨by decide, stackFits_of_nil _ rfl, fun _ => rfl, fun _ => ⟨rfl, rfl⟩, fun h => absurd h (by decide), fun h => absurd h (by decide)⟩, step_slot⟩

/-- A call that takes the last free entry, and a change of the configuration that the stack does not fit into. -/
theorem witness_EveryStepKeepsTheStackBound :
    ((slot 0x2400).setStack (List.replicate 15 0x202)).WithinDepth ∧
    after ((slot 0x2400).setStack (List.replicate 15 0x202)) (fun t => t.stack.length) = some 16 ∧
    (boundary.setStack [0x202, 0x204]).WithinDepth :=
  ⟨(depthAllowed_iff _ _).1 (by decide), by decide, (depthAllowed_iff _ _).1 (by decide)⟩

theorem witness_ConfigurationChange :
    StackFits (roomFor 2 (by decide)).stackDepth (boundary.setStack [0x202, 0x204]) ∧
    ¬ StackFits (roomFor 1 (by decide)).stackDepth (boundary.setStack [0x202, 0x204]) :=
  ⟨(depthAllowed_iff _ _).1 (by decide), fun h => absurd ((depthAllowed_iff _ _).2 h) (by decide)⟩

end Sys2Proof.Tests
end

section
/-! The proofs of the family 10_state: what an instruction, a slot and a step leave unchanged, what an instruction
does not read, and the invariant of the machine. -/

namespace Sys2Proof.Proofs

open Sys2Proof Sys2Proof.Machine Sys2Proof.Claims

/-! ### The frame of each update -/

theorem keepsAllBut_setReg (s : State) (r : Reg) (x : Byte) : KeepsAllBut [.regs] s (s.setReg r x) := by
  intro p hp; cases p <;> simp_all [Keeps]

theorem keepsAllBut_setIndex (s : State) (x : Word) : KeepsAllBut [.index] s (s.setIndex x) := by
  intro p hp; cases p <;> simp_all [Keeps]

theorem keepsAllBut_setPc (s : State) (x : Word) : KeepsAllBut [.pc] s (s.setPc x) := by
  intro p hp; cases p <;> simp_all [Keeps]

theorem keepsAllBut_setStack (s : State) (x : List Word) : KeepsAllBut [.stack] s (s.setStack x) := by
  intro p hp; cases p <;> simp_all [Keeps]

theorem keepsAllBut_setDt (s : State) (x : Byte) : KeepsAllBut [.dt] s (s.setDt x) := by
  intro p hp; cases p <;> simp_all [Keeps]

theorem keepsAllBut_setSt (s : State) (x : Byte) : KeepsAllBut [.st] s (s.setSt x) := by
  intro p hp; cases p <;> simp_all [Keeps]

theorem keepsAllBut_setFb (s : State) (x : Framebuffer) : KeepsAllBut [.fb] s (s.setFb x) := by
  intro p hp; cases p <;> simp_all [Keeps]

theorem keepsAllBut_setMem (s : State) (x : Memory) : KeepsAllBut [.mem] s (s.setMem x) := by
  intro p hp; cases p <;> simp_all [Keeps]

theorem keepsAllBut_setFault (s : State) (x : FaultRegister) : KeepsAllBut [.fault] s (s.setFault x) := by
  intro p hp; cases p <;> simp_all [Keeps]

theorem keepsAllBut_setConfig (s : State) (x : Config) : KeepsAllBut [.config] s (s.setConfig x) := by
  intro p hp; cases p <;> simp_all [Keeps]

theorem keepsAllBut_setSlotsLeft (s : State) (x : Nat) : KeepsAllBut [.slots] s (s.setSlotsLeft x) := by
  intro p hp; cases p <;> simp_all [Keeps]

theorem keepsAllBut_setScript (s : State) (x : List HostMove) : KeepsAllBut [.script] s (s.setScript x) := by
  intro p hp; cases p <;> simp_all [Keeps]

theorem keepsAllBut_setRndIn (s : State) (x : List Byte) : KeepsAllBut [.rnd] s (s.setRndIn x) := by
  intro p hp; cases p <;> simp_all [Keeps]

theorem keepsAllBut_setRndDrawn (s : State) (x : Nat) : KeepsAllBut [.rnd] s (s.setRndDrawn x) := by
  intro p hp; cases p <;> simp_all [Keeps]

theorem keepsAllBut_setOut (s : State) (x : List Output) : KeepsAllBut [.out] s (s.setOut x) := by
  intro p hp; cases p <;> simp_all [Keeps]

/-- Two changes one after the other keep what both keep. -/
theorem keepsAllBut_append {ps qs : List Part} {s t u : State} (h : KeepsAllBut ps s t) (h' : KeepsAllBut qs t u) :
    KeepsAllBut (ps ++ qs) s u :=
  (h.mono (List.subset_append_left ps qs)).trans (h'.mono (List.subset_append_right ps qs))

/-- At one part: what is kept by two changes is kept by both together. -/
theorem keeps_trans {s t u : State} {p : Part} (h : Keeps s t p) (h' : Keeps t u p) : Keeps s u p := by
  cases p <;> simp_all [Keeps]

theorem keepsAllBut_skipIf (s : State) (c : Bool) : KeepsAllBut [.pc] s (s.skipIf c) := by
  rw [skipIf_eq]
  exact keepsAllBut_setPc s _

theorem keepsAllBut_setResultThenFlag (s : State) (x : Reg) (r : Byte) (f : Bool) :
    KeepsAllBut [.regs] s (s.setResultThenFlag x r f) :=
  (keepsAllBut_setReg s x r).trans (keepsAllBut_setReg _ regVF _)

theorem keepsAllBut_rndTaken (s : State) : KeepsAllBut [.rnd] s s.rndTaken := by
  obtain ⟨xs, n, h⟩ := rndTaken_cases s
  rw [h]
  exact (keepsAllBut_setRndIn s xs).trans (keepsAllBut_setRndDrawn _ n)

theorem keepsAllBut_storeRegs (s : State) (rs : List Reg) : KeepsAllBut [.mem] s (s.storeRegs rs) := by
  obtain ⟨m, h, -⟩ := storeRegs_eq s rs
  rw [h]
  exact keepsAllBut_setMem s m

theorem keepsAllBut_loadRegs (s : State) (rs : List Reg) : KeepsAllBut [.regs] s (s.loadRegs rs) := by
  induction rs generalizing s with
  | nil => exact .refl _ s
  | cons r rest ih => exact (keepsAllBut_setReg s r _).trans (ih _)

theorem keepsAllBut_fetched (s : State) : KeepsAllBut [.out, .pc] s s.fetched :=
  keepsAllBut_append (keepsAllBut_setOut s _) (keepsAllBut_setPc _ _)

/-! ### What the instructions that look at the stack or the keys can do -/

theorem exec_ret_cases {s t : State} (h : exec .ret s = .next t) :
    (s.stack = [] ∧ t = s.setPc 0x200) ∨ ∃ top rest, s.stack = top :: rest ∧ t = (s.setStack rest).setPc top := by
  cases hs : s.stack with
  | nil => rw [exec_ret_nil hs] at h; cases h; exact .inl ⟨rfl, rfl⟩
  | cons top rest => rw [exec_ret_cons hs] at h; cases h; exact .inr ⟨top, rest, rfl, rfl⟩

theorem exec_call_cases {nnn : Addr12} {s t : State} (h : exec (.call nnn) s = .next t) :
    (s.stackFull = false ∧ t = (s.setStack (s.pc :: s.stack)).setPc (addrWord nnn)) ∨
    (s.stackFull = true ∧ t = (s.setPc (s.pc - 2)).setFault ⟨.stackOverflow, s.pc - 2, encode (.call nnn)⟩) := by
  cases hf : s.stackFull with
  | false => rw [exec_call_room nnn hf] at h; cases h; exact .inl ⟨rfl, rfl⟩
  | true => rw [exec_call_full nnn hf] at h; cases h; exact .inr ⟨rfl, rfl⟩

theorem exec_ldVxK_cases {x : Reg} {s t : State} (h : exec (.ldVxK x) s = .next t) :
    (s.keypad = 0 ∧ t = s.setPc (s.pc - 2)) ∨
    ∃ k, lowestKey s.keypad = some k ∧ t = s.setReg x (BitVec.ofNat 8 k) := by
  cases hk : lowestKey s.keypad with
  | none =>
    have hup := (lowestKey_none_iff _).1 hk
    rw [exec_ldVxK_up x hup] at h
    cases h
    exact .inl ⟨hup, rfl⟩
  | some k => rw [exec_ldVxK_down x hk] at h; cases h; exact .inr ⟨k, rfl, rfl⟩

/-! ### The frame of each instruction -/

theorem exec_keepsAllBut {i : Instr} {s t : State} (h : exec i s = .next t) : KeepsAllBut (mayWrite i) s t := by
  cases i
  case cls => cases h; exact keepsAllBut_setFb s _
  case ret =>
    rcases exec_ret_cases h with ⟨-, rfl⟩ | ⟨top, rest, -, rfl⟩
    · exact (keepsAllBut_setPc s _).mono (by decide)
    · exact (keepsAllBut_append (keepsAllBut_setStack s rest) (keepsAllBut_setPc _ top)).mono (by decide)
  case call nnn =>
    rcases exec_call_cases h with ⟨-, rfl⟩ | ⟨-, rfl⟩
    · exact (keepsAllBut_append (keepsAllBut_setStack s _) (keepsAllBut_setPc _ _)).mono (by simp [mayWrite])
    · exact (keepsAllBut_append (keepsAllBut_setPc s _) (keepsAllBut_setFault _ _)).mono (by simp [mayWrite])
  case jp | jpV0 => cases h; exact keepsAllBut_setPc s _
  case seImm | sneImm | seReg | sneReg | skp | sknp => cases h; exact keepsAllBut_skipIf s _
  case ldImm | addImm | ldReg | orReg | andReg | xorReg | ldVxDt => cases h; exact keepsAllBut_setReg s _ _
  case addReg | subReg | shr | subn | shl => cases h; exact keepsAllBut_setResultThenFlag s _ _ _
  case ldI | addI | ldF => cases h; exact keepsAllBut_setIndex s _
  case rnd =>
    cases h
    exact (keepsAllBut_append (keepsAllBut_rndTaken s) (keepsAllBut_setReg _ _ _)).mono (by simp [mayWrite])
  case drw =>
    cases h
    exact (keepsAllBut_append (keepsAllBut_setFb s _) (keepsAllBut_setReg _ regVF _)).mono (by simp [mayWrite])
  case ldVxK x =>
    rcases exec_ldVxK_cases h with ⟨-, rfl⟩ | ⟨k, -, rfl⟩
    · exact (keepsAllBut_setPc s _).mono (by simp [mayWrite])
    · exact (keepsAllBut_setReg s x _).mono (by simp [mayWrite])
  case ldDtVx => cases h; exact keepsAllBut_setDt s _
  case ldStVx => cases h; exact keepsAllBut_setSt s _
  case ldB => cases h; exact keepsAllBut_setMem s _
  case ldMemVx => cases h; exact keepsAllBut_storeRegs s _
  case ldVxMem => cases h; exact keepsAllBut_loadRegs s _

/-- Settles O32: the frame of every instruction. -/
theorem instructionsWriteOnlyTheirParts : Obligations.InstructionsWriteOnlyTheirParts :=
  fun _ _ _ h => exec_keepsAllBut h

/-- Fx15 is the one instruction that may write DT. -/
theorem dt_mem_mayWrite {i : Instr} (h : Part.dt ∈ mayWrite i) : ∃ x, i = .ldDtVx x := by
  cases i <;> simp_all [mayWrite]

/-- Fx18 is the one instruction that may write ST. -/
theorem st_mem_mayWrite {i : Instr} (h : Part.st ∈ mayWrite i) : ∃ x, i = .ldStVx x := by
  cases i <;> simp_all [mayWrite]

/-- CALL is the one instruction that may write the fault register. -/
theorem fault_mem_mayWrite {i : Instr} (h : Part.fault ∈ mayWrite i) : ∃ nnn, i = .call nnn := by
  cases i <;> simp_all [mayWrite]

/-- RET and CALL are the instructions that may write the stack. -/
theorem stack_mem_mayWrite {i : Instr} (h : Part.stack ∈ mayWrite i) : i = .ret ∨ ∃ nnn, i = .call nnn := by
  cases i <;> simp_all [mayWrite]

/-- The parts that no instruction writes: they are the host's, the tick's and the outputs'. -/
def hostParts : List Part := [.keypad, .runState, .config, .slots, .script, .out]

theorem not_mem_mayWrite_of_hostPart (i : Instr) : ∀ p ∈ hostParts, p ∉ mayWrite i := by
  cases i <;> simp [hostParts, mayWrite]

/-! ### The registers each instruction writes -/

/-- A register that is neither the destination nor VF is unchanged by a result and its flag. -/
theorem reg_setResultThenFlag_other (s : State) {x r : Reg} (v : Byte) (f : Bool) (h : ¬ (r = x ∨ r = regVF)) :
    (s.setResultThenFlag x v f).reg r = s.reg r := by
  obtain ⟨hx, hvf⟩ := not_or.1 h
  rw [reg_setResultThenFlag_of_ne s x v f hvf, if_neg hx]

theorem reg_rndTaken (s : State) (r : Reg) : s.rndTaken.reg r = s.reg r := keepsAllBut_rndTaken s .regs (by decide) r

theorem exec_reg_of_not_mayWriteReg {i : Instr} {s t : State} {r : Reg} (h : exec i s = .next t)
    (hr : ¬ mayWriteReg i r) : t.reg r = s.reg r := by
  by_cases hw : Part.regs ∈ mayWrite i
  · cases i
    case ldImm | addImm | ldReg | orReg | andReg | xorReg | ldVxDt => cases h; exact reg_setReg_of_ne s _ hr
    case addReg | subReg | shr | subn | shl => cases h; exact reg_setResultThenFlag_other s _ _ hr
    case rnd => cases h; exact (reg_setReg_of_ne _ _ hr).trans (reg_rndTaken s r)
    case drw => cases h; exact reg_setReg_of_ne (s.setFb _) _ hr
    case ldVxK x =>
      rcases exec_ldVxK_cases h with ⟨-, rfl⟩ | ⟨k, -, rfl⟩
      · rfl
      · exact reg_setReg_of_ne s _ hr
    case ldVxMem x =>
      cases h
      exact (reg_loadRegs s r).trans (if_neg fun hmem => hr ((mem_regsUpTo x r).1 hmem))
    all_goals simp [mayWrite] at hw
  · exact exec_keepsAllBut h .regs hw r

/-- Settles O33: an instruction that may write registers writes only its destination and VF, and every other one keeps
them all by its frame. -/
theorem instructionsWriteOnlyTheirRegisters : Obligations.InstructionsWriteOnlyTheirRegisters :=
  fun _ _ _ _ h hr => exec_reg_of_not_mayWriteReg h hr

/-! ### What an instruction does not read -/

/-- The state `s` with the parts that no instruction but Ex9E, ExA1 and Fx0A reads taken from `e`. -/
def withUnread (s e : State) : State :=
  { s with keypad := e.keypad, st := e.st, runState := e.runState, fault := e.fault, slotsLeft := e.slotsLeft,
           script := e.script, out := e.out }

theorem skipIf_withUnread (s e : State) (c : Bool) : (withUnread s e).skipIf c = withUnread (s.skipIf c) e := by
  cases c <;> rfl

theorem rndTaken_withUnread (s e : State) : (withUnread s e).rndTaken = withUnread s.rndTaken e := by
  cases h : s.rndIn with
  | nil => rw [(rnd_of_free h).2, (rnd_of_free (s := withUnread s e) h).2]; rfl
  | cons r rest => rw [(rnd_of_waiting h).2, (rnd_of_waiting (s := withUnread s e) h).2]; rfl

theorem storeRegs_withUnread (s e : State) (rs : List Reg) :
    (withUnread s e).storeRegs rs = withUnread (s.storeRegs rs) e := by
  induction rs generalizing s with
  | nil => rfl
  | cons r rest ih => exact ih (s.memWrite (s.addrAt r.val) (s.reg r))

theorem loadRegs_withUnread (s e : State) (rs : List Reg) :
    (withUnread s e).loadRegs rs = withUnread (s.loadRegs rs) e := by
  induction rs generalizing s with
  | nil => rfl
  | cons r rest ih => exact ih (s.setReg r (s.memRead (s.addrAt r.val)))

/-- Where an instruction writes none of the parts that `withUnread` replaces, and the keypad is the same where it is
read, replacing them before or after it is the same. -/
theorem exec_withUnread {i : Instr} {s t e : State} (h : exec i s = .next t)
    (hkeys : readsKeypad i → e.keypad = s.keypad) (hst : Part.st ∉ mayWrite i)
    (hfault : Part.fault ∈ mayWrite i → s.stackFull = false) :
    exec i (withUnread s e) = .next (withUnread t e) := by
  cases i
  case ret =>
    rcases exec_ret_cases h with ⟨hs, rfl⟩ | ⟨top, rest, hs, rfl⟩
    · exact exec_ret_nil hs
    · exact exec_ret_cons hs
  case call nnn =>
    have hroom := hfault (by simp [mayWrite])
    rw [exec_call_room nnn hroom] at h
    cases h
    exact exec_call_room (s := withUnread s e) nnn hroom
  case seImm | sneImm | seReg | sneReg => cases h; exact congrArg _ (skipIf_withUnread s e _)
  case skp x | sknp x =>
    have hkeys := hkeys trivial
    cases h
    rw [← skipIf_withUnread, ← hkeys]
    rfl
  case ldVxK x =>
    have hkeys : e.keypad = s.keypad := hkeys trivial
    rcases exec_ldVxK_cases h with ⟨hup, rfl⟩ | ⟨k, hk, rfl⟩
    · exact exec_ldVxK_up x (hkeys.trans hup)
    · exact exec_ldVxK_down (s := withUnread s e) x (hkeys ▸ hk)
  case rnd x kk => cases h; rw [exec_rnd, rndTaken_withUnread]; rfl
  case ldStVx x => exact absurd (List.mem_singleton_self _) hst
  case ldMemVx => cases h; exact congrArg _ (storeRegs_withUnread s e _)
  case ldVxMem => cases h; exact congrArg _ (loadRegs_withUnread s e _)
  -- Every other instruction is one unconditional update of operands that `withUnread` leaves alone.
  all_goals cases h; rfl

/-- An instruction that cannot tell keypads apart runs the same under every keypad. -/
theorem exec_setKeypad {i : Instr} {s t : State} (keys : BitVec 16) (hr : ¬ readsKeypad i) (h : exec i s = .next t) :
    exec i (s.setKeypad keys) = .next (t.setKeypad keys) := by
  by_cases hst : Part.st ∈ mayWrite i
  · obtain ⟨x, rfl⟩ := st_mem_mayWrite hst
    cases h
    rfl
  by_cases hfault : Part.fault ∈ mayWrite i
  · obtain ⟨nnn, rfl⟩ := fault_mem_mayWrite hfault
    rcases exec_call_cases h with ⟨hf, rfl⟩ | ⟨hf, rfl⟩
    · exact exec_call_room (s := s.setKeypad keys) nnn hf
    · exact exec_call_full (s := s.setKeypad keys) nnn hf
  have hframe := exec_keepsAllBut h
  have hhost {p : Part} (hp : p ∈ hostParts) : Keeps s t p := hframe p (not_mem_mayWrite_of_hostPart i p hp)
  have ht : withUnread t (s.setKeypad keys) = t.setKeypad keys := by
    have hst : t.st = s.st := hframe .st hst
    have hfault : t.fault = s.fault := hframe .fault hfault
    have hrun : t.runState = s.runState := hhost (p := .runState) (by decide)
    have hslots : t.slotsLeft = s.slotsLeft := hhost (p := .slots) (by decide)
    have hscript : t.script = s.script := hhost (p := .script) (by decide)
    have hout : t.out = s.out := hhost (p := .out) (by decide)
    simp [withUnread, State.setKeypad, hst, hfault, hrun, hslots, hscript, hout]
  rw [← ht]
  exact exec_withUnread (e := s.setKeypad keys) h (absurd · hr) hst (absurd · hfault)

/-- Settles O34: only the parts that `withUnread` replaces change with the keypad. -/
theorem keypadIsReadByThreeInstructions : Obligations.KeypadIsReadByThreeInstructions :=
  fun _ _ _ keys hr h => exec_setKeypad keys hr h

/-- Two states agree on what is read when one is the other with the parts that are not read replaced, the keypad as
it was. -/
theorem agreeOnRead_iff {s s' : State} : AgreeOnRead s s' ↔ s' = withUnread s s' ∧ s'.keypad = s.keypad := by
  constructor
  · rintro ⟨hv, hindex, hpc, hstack, hdt, hfb, hmem, hkeypad, hconfig, hrndIn, hrndDrawn⟩
    refine ⟨?_, hkeypad⟩
    cases s'
    simp_all [withUnread]
  · rintro ⟨heq, hkeypad⟩
    rw [heq]
    exact ⟨rfl, rfl, rfl, rfl, rfl, rfl, rfl, hkeypad, rfl, rfl, rfl⟩

/-- Settles O35: agreeing states differ in the parts that `withUnread` replaces; Fx18 and a full CALL, which write one
of these parts, write the same on both sides. -/
theorem hiddenStateIsNeverRead : Obligations.HiddenStateIsNeverRead := by
  intro i s s' t hagree h
  obtain ⟨heq, hkeypad⟩ := agreeOnRead_iff.1 hagree
  rw [heq]
  by_cases hst : Part.st ∈ mayWrite i
  · obtain ⟨x, rfl⟩ := st_mem_mayWrite hst
    cases h
    exact ⟨_, exec_ldStVx x _, agreeOnRead_iff.2 ⟨rfl, hkeypad⟩⟩
  by_cases hfull : Part.fault ∈ mayWrite i ∧ s.stackFull = true
  · obtain ⟨hfault, hf⟩ := hfull
    obtain ⟨nnn, rfl⟩ := fault_mem_mayWrite hfault
    rw [exec_call_full nnn hf] at h
    cases h
    exact ⟨_, exec_call_full (s := withUnread s s') nnn hf, agreeOnRead_iff.2 ⟨rfl, hkeypad⟩⟩
  have hkept : t.keypad = s.keypad :=
    exec_keepsAllBut h .keypad (not_mem_mayWrite_of_hostPart i .keypad (by decide))
  have hroom (hm : Part.fault ∈ mayWrite i) : s.stackFull = false := Bool.eq_false_iff.2 fun hf => hfull ⟨hm, hf⟩
  exact ⟨withUnread t s', exec_withUnread h (fun _ => hkeypad) hst hroom,
    agreeOnRead_iff.2 ⟨rfl, hkeypad.trans hkept.symm⟩⟩

/-! ### What a step can do -/

/-- When the core moves inside a tick, the slot starts from a state of `SlotNext`. -/
theorem slotNext_of_turn {s u : State} {n : Nat} (h : (s.setOut []).turn = .core u) (hn : u.slotsLeft = n + 1) :
    SlotNext s (u.setSlotsLeft n) := by
  have hs : s.slotsLeft = n + 1 := by
    obtain ⟨rest, rfl⟩ := turn_core h
    exact hn
  cases hscript : s.script with
  | nil =>
    rw [turn_quiet (s := s.setOut []) hscript] at h
    cases h
    exact ⟨n, [], hs, by rw [← hscript]; rfl, .inl ⟨hscript, rfl⟩⟩
  | cons m rest =>
    cases m with
    | pass =>
      rw [turn_pass (s := s.setOut []) hscript] at h
      cases h
      exact ⟨n, rest, hs, rfl, .inr (.inl hscript)⟩
    | keypad keys => rw [turn_keypad (s := s.setOut []) hscript] at h; cases h
    | command c =>
      rw [turn_command_waits (s := s.setOut []) hscript (show s.slotsLeft ≠ 0 by omega)] at h
      cases h
      exact ⟨n, s.script, hs, rfl, .inr (.inr ⟨c, rest, hscript, rfl⟩)⟩

/-- Everything a step can do, said from the state before it: the host sets the keypad, or issues a command at a
boundary; or a TICK comes at a boundary; or a slot runs. -/
theorem step_next_cases {s t : State} (h : step s = .next t) :
    (∃ keys rest, s.script = .keypad keys :: rest ∧ t = ((s.setOut []).setScript rest).setKeypad keys) ∨
    (∃ c rest, s.script = .command c :: rest ∧ s.slotsLeft = 0 ∧ t = ((s.setOut []).setScript rest).obey c) ∨
    (∃ rest, s.slotsLeft = 0 ∧ t = ((s.setOut []).setScript rest).tick) ∨
    (∃ u, SlotNext s u ∧ executeOne u = .next t) := by
  rcases step_cases h with hhost | ⟨u, hturn, hslots, rfl⟩ | ⟨u, n, hturn, hslots, hexec⟩
  · rcases turn_host hhost with ⟨keys, rest, hscript, rfl⟩ | ⟨c, rest, hscript, hslots, rfl⟩
    · exact .inl ⟨keys, rest, hscript, rfl⟩
    · exact .inr (.inl ⟨c, rest, hscript, hslots, rfl⟩)
  · obtain ⟨rest, rfl⟩ := turn_core hturn
    exact .inr (.inr (.inl ⟨rest, hslots, rfl⟩))
  · exact .inr (.inr (.inr ⟨u.setSlotsLeft n, slotNext_of_turn hturn hslots, hexec⟩))

/-! ### The frame of a step -/

/-- A slot keeps every part but pc and the outputs, and those that its instruction may write. -/
theorem executeOne_keeps {s t : State} {p : Part} (h : executeOne s = .next t) (hp : p ∉ [Part.out, .pc])
    (hw : ∀ i, decode s.fetchWord = .ok i → p ∉ mayWrite i) : Keeps s t p := by
  rcases executeOne_cases h with ⟨-, rfl⟩ | ⟨-, -, rfl⟩ | ⟨-, -, -, rfl⟩ | ⟨-, -, i, u, hi, hexec, rfl⟩
  · exact KeepsAllBut.refl [] t p List.not_mem_nil
  · exact (keepsAllBut_setPc s _).mono (by simp) p hp
  · exact keepsAllBut_fetched s p hp
  · have hrun := keepsAllBut_append (keepsAllBut_fetched s) (exec_keepsAllBut hexec)
    have hnot : p ∉ [Part.out, .pc] ++ mayWrite i ++ [.out] := by
      have := hw i hi
      simp_all
    exact keepsAllBut_append hrun (keepsAllBut_setOut u _) p hnot

/-- The state a slot starts from differs in the host's script, the outputs and the count of the slots left. -/
theorem slotNext_keeps {s u : State} (h : SlotNext s u) : KeepsAllBut [.out, .script, .slots] s u := by
  obtain ⟨n, rest, -, rfl, -⟩ := h
  exact keepsAllBut_append (keepsAllBut_append (keepsAllBut_setOut s _) (keepsAllBut_setScript _ _))
    (keepsAllBut_setSlotsLeft _ n)

theorem keepsAllBut_tick (s : State) : KeepsAllBut [.dt, .st, .slots] s s.tick := by
  by_cases h : s.runState = .running ∧ s.fault.cause = .noFault
  · obtain ⟨hrun, hf⟩ := h
    rw [tick_running hrun hf]
    exact keepsAllBut_append (keepsAllBut_append (keepsAllBut_setDt s _) (keepsAllBut_setSt _ _))
      (keepsAllBut_setSlotsLeft _ _)
  · rw [tick_idle (not_and_or.1 h)]
    exact .refl _ s

/-- Everything a command can do: change nothing; change the control state, to Running or Paused; reset; change the
configuration, where the stack fits; turn a ROM away; or copy one, over the state as it is or after a reset. -/
theorem obey_cases (s : State) (c : Command) :
    s.obey c = s ∨ (∃ r, r ≠ .stopped ∧ s.obey c = s.setRunState r) ∨ s.obey c = s.resetAll ∨
    (∃ c', StackFits c'.stackDepth s ∧ s.obey c = s.setConfig c') ∨ (∃ e, s.obey c = s.emit e) ∨
    (∃ u b e, (u = s ∨ u = s.resetAll) ∧ s.obey c = (u.setMem (u.mem.writeBytes 0x200 b)).emit e) := by
  cases c with
  | start =>
    cases hr : s.runState
    · exact .inr (.inl ⟨.running, by decide, by simp [State.obey, State.start, hr]⟩)
    · exact .inl (by simp [State.obey, State.start, hr])
    · exact .inl (by simp [State.obey, State.start, hr])
  | stop => exact .inr (.inr (.inl rfl))
  | togglePause =>
    cases hr : s.runState
    · exact .inl (by simp [State.obey, State.togglePause, hr])
    · exact .inr (.inl ⟨.paused, by decide, by simp [State.obey, State.togglePause, hr]⟩)
    · exact .inr (.inl ⟨.running, by decide, by simp [State.obey, State.togglePause, hr]⟩)
  | loadRom b =>
    by_cases hlen : b.length > 3584
    · exact .inr (.inr (.inr (.inr (.inl ⟨_, if_pos hlen⟩))))
    · refine .inr (.inr (.inr (.inr (.inr ⟨s.readyForRom, b, _, ?_, if_neg hlen⟩))))
      unfold State.readyForRom
      cases s.runState <;> simp
  | configure c =>
    by_cases hfits : StackFits c.stackDepth s
    · exact .inr (.inr (.inr (.inl ⟨c, hfits, configure_fits hfits⟩)))
    · exact .inl (configure_tooSmall hfits)

/-- No command touches the keypad. -/
theorem obey_keypad (s : State) (c : Command) : (s.obey c).keypad = s.keypad := by
  rcases obey_cases s c with h | ⟨r, -, h⟩ | h | ⟨c', -, h⟩ | ⟨e, h⟩ | ⟨u, b, e, hu, h⟩
  · rw [h]
  · rw [h]; rfl
  · rw [h]; rfl
  · rw [h]; rfl
  · rw [h]; rfl
  · rw [h]; rcases hu with rfl | rfl <;> rfl

/-- A slot of the running tick keeps every part but pc, the script, the outputs and the count of the slots, and those
that its instruction may write. -/
theorem slot_keeps {s u t : State} {p : Part} (hslot : SlotNext s u) (h : executeOne u = .next t)
    (hp : p ∉ [Part.out, .script, .slots, .pc]) (hw : ∀ i, decode u.fetchWord = .ok i → p ∉ mayWrite i) :
    Keeps s t p := by
  have hstart : Keeps s u p := slotNext_keeps hslot p (by simp_all)
  have hend : Keeps u t p := executeOne_keeps h (by simp_all) hw
  exact keeps_trans hstart hend

/-- A step inside a tick that leaves another DT or ST is a slot whose instruction may write it. -/
theorem slot_of_timer_changed {s t : State} {p : Part} (h : step s = .next t) (hs : s.slotsLeft ≠ 0)
    (hp : p ∈ [Part.dt, .st]) (hne : ¬ Keeps s t p) :
    ∃ u i, SlotNext s u ∧ decode u.fetchWord = .ok i ∧ p ∈ mayWrite i := by
  have hp' : p ∉ [Part.out, .script, .slots, .pc] := by rcases List.mem_pair.1 hp with rfl | rfl <;> decide
  rcases step_next_cases h with ⟨keys, rest, -, rfl⟩ | ⟨-, -, -, h0, -⟩ | ⟨-, h0, -⟩ | ⟨u, hslot, hexec⟩
  · exact absurd (by rcases List.mem_pair.1 hp with rfl | rfl <;> rfl) hne
  · exact absurd h0 hs
  · exact absurd h0 hs
  · by_contra hno
    exact hne (slot_keeps hslot hexec hp' fun i hi hw => hno ⟨u, i, hslot, hi, hw⟩)

/-- Settles O47: inside a tick only a slot can change a timer, and it runs an instruction that may write it. -/
theorem timersChangeInsideATickOnlyByInstruction : Obligations.TimersChangeInsideATickOnlyByInstruction := by
  intro s t h hs
  constructor
  · intro hne
    obtain ⟨u, i, hslot, hi, hw⟩ := slot_of_timer_changed (p := .dt) h hs (by decide) hne
    obtain ⟨x, rfl⟩ := dt_mem_mayWrite hw
    exact ⟨u, x, hslot, hi⟩
  · intro hne
    obtain ⟨u, i, hslot, hi, hw⟩ := slot_of_timer_changed (p := .st) h hs (by decide) hne
    obtain ⟨x, rfl⟩ := st_mem_mayWrite hw
    exact ⟨u, x, hslot, hi⟩

/-- Settles O51: of the four kinds of step, a TICK and a slot keep the host's parts, a keypad move changes none but the
keypad, and a command is one at a boundary and keeps the keypad. -/
theorem onlyTheHostChangesItsState : Obligations.OnlyTheHostChangesItsState := by
  intro s t h
  have of_kept {P Q : Prop} (hkeypad : Keeps s t .keypad) (hrun : Keeps s t .runState) (hconfig : Keeps s t .config) :
      (t.keypad ≠ s.keypad → P) ∧ (t.runState ≠ s.runState ∨ t.config ≠ s.config → Q) :=
    ⟨(absurd hkeypad ·), fun hne => hne.elim (absurd hrun ·) (absurd hconfig ·)⟩
  rcases step_next_cases h with ⟨keys, rest, hscript, rfl⟩ | ⟨c, rest, hscript, h0, rfl⟩ | ⟨rest, -, rfl⟩ |
    ⟨u, hslot, hexec⟩
  · exact ⟨fun _ => ⟨keys, rest, hscript, rfl⟩, fun hne => absurd hne (by simp)⟩
  · exact ⟨fun hne => absurd (obey_keypad _ c) hne, fun _ => ⟨c, rest, hscript, h0⟩⟩
  · have hframe := keepsAllBut_tick ((s.setOut []).setScript rest)
    exact of_kept (hframe .keypad (by decide)) (hframe .runState (by decide)) (hframe .config (by decide))
  · have hframe {p : Part} (hhost : p ∈ hostParts) (hp : p ∉ [Part.out, .script, .slots, .pc]) : Keeps s t p :=
      slot_keeps hslot hexec hp fun i _ => not_mem_mayWrite_of_hostPart i p hhost
    exact of_kept (hframe (by decide) (by decide)) (hframe (by decide) (by decide)) (hframe (by decide) (by decide))

/-- Settles O60: a change that the stack fits into is made, and any other is not. -/
theorem configurationChange : Obligations.ConfigurationChange := by
  intro s c
  refine ⟨fun hfits => ?_, fun hsmall => configure_tooSmall hsmall⟩
  rw [State.obey, configure_fits hfits]
  exact ⟨rfl, keepsAllBut_setConfig s c⟩

/-! ### The stack bound -/

/-- The bound is about the stack and the configuration only. -/
theorem withinDepth_of_keeps {s t : State} (h : s.WithinDepth) (hstack : Keeps s t .stack)
    (hconfig : Keeps s t .config) : t.WithinDepth := by
  unfold State.WithinDepth StackFits at *
  rwa [show t.config = s.config from hconfig, show t.stack = s.stack from hstack]

theorem withinDepth_resetAll (s : State) : s.resetAll.WithinDepth := stackFits_of_nil _ rfl

/-- A RET takes an entry off, and a CALL puts one on only where there is room. -/
theorem withinDepth_exec {i : Instr} {s t : State} (hs : s.WithinDepth) (h : exec i s = .next t) : t.WithinDepth := by
  by_cases hw : Part.stack ∈ mayWrite i
  · intro entries positive hbound
    rcases stack_mem_mayWrite hw with rfl | ⟨nnn, rfl⟩
    · rcases exec_ret_cases h with ⟨-, rfl⟩ | ⟨top, rest, hst, rfl⟩
      · exact hs entries positive hbound
      · have hle : s.stack.length ≤ entries := hs entries positive hbound
        rw [hst] at hle
        exact Nat.le_of_succ_le hle
    · rcases exec_call_cases h with ⟨hf, rfl⟩ | ⟨-, rfl⟩
      · have hle : s.stack.length ≤ entries := hs entries positive hbound
        have hne : s.stack.length ≠ entries := fun he => by
          simp [(stackFull_iff s).2 ⟨entries, positive, hbound, he⟩] at hf
        exact Nat.lt_of_le_of_ne hle hne
      · exact hs entries positive hbound
  · have hframe := exec_keepsAllBut h
    exact withinDepth_of_keeps hs (hframe .stack hw)
      (hframe .config (not_mem_mayWrite_of_hostPart i .config (by decide)))

theorem withinDepth_executeOne {s t : State} (hs : s.WithinDepth) (h : executeOne s = .next t) : t.WithinDepth := by
  rcases executeOne_cases h with ⟨-, rfl⟩ | ⟨-, -, rfl⟩ | ⟨-, -, -, rfl⟩ | ⟨-, -, i, u, -, hexec, rfl⟩
  · exact hs
  · exact hs
  · exact hs
  · have hu : u.WithinDepth := withinDepth_exec (s := s.fetched) hs hexec
    exact hu

theorem withinDepth_obey {s : State} (hs : s.WithinDepth) (c : Command) : (s.obey c).WithinDepth := by
  rcases obey_cases s c with h | ⟨r, -, h⟩ | h | ⟨c', hfits, h⟩ | ⟨e, h⟩ | ⟨u, b, e, hu, h⟩
  · rw [h]; exact hs
  · rw [h]; exact hs
  · rw [h]; exact withinDepth_resetAll s
  · rw [h]; exact hfits
  · rw [h]; exact hs
  · have hu : u.WithinDepth := by
      rcases hu with rfl | rfl
      · exact hs
      · exact withinDepth_resetAll s
    rw [h]
    exact hu

theorem withinDepth_step {s t : State} (hs : s.WithinDepth) (h : step s = .next t) : t.WithinDepth := by
  rcases step_next_cases h with ⟨keys, rest, -, rfl⟩ | ⟨c, rest, -, -, rfl⟩ | ⟨rest, -, rfl⟩ | ⟨u, hslot, hexec⟩
  · exact hs
  · exact withinDepth_obey (s := (s.setOut []).setScript rest) hs c
  · have hframe := keepsAllBut_tick ((s.setOut []).setScript rest)
    exact withinDepth_of_keeps (s := (s.setOut []).setScript rest) hs (hframe .stack (by decide))
      (hframe .config (by decide))
  · have hframe := slotNext_keeps hslot
    exact withinDepth_executeOne (withinDepth_of_keeps hs (hframe .stack (by decide)) (hframe .config (by decide))) hexec

/-- Settles O59: a CALL faults where the stack is full, a change of the configuration that the stack does not fit into is
not made, and no other move makes the stack deeper. -/
theorem everyStepKeepsTheStackBound : Obligations.EveryStepKeepsTheStackBound := fun _ _ hs h => withinDepth_step hs h

/-! ### The invariant -/

/-- Settles O57: the newly constructed block has its reset values, and an empty stack is within every bound. -/
theorem invariantHoldsAtReset : Obligations.InvariantHoldsAtReset := by
  have hreset : State.reset.ResetButMemory :=
    ⟨fun r => by simp [State.reset, State.reg], rfl, rfl, rfl, rfl, rfl, pixel_blank, rfl⟩
  have hdepth : State.reset.WithinDepth := stackFits_of_nil _ rfl
  exact ⟨⟨rfl, hdepth, fun h => absurd rfl h, fun _ => ⟨rfl, rfl⟩, nofun, fun _ => hreset⟩, hdepth⟩

/-- A state that is not Stopped has no reset values to hold: the rest of the invariant is enough. -/
theorem inv_of_not_stopped {s : State} (hrun : s.runState ≠ .stopped) (hmem : s.mem.wf = true) (hdepth : s.WithinDepth)
    (hslots : s.slotsLeft ≠ 0 → s.runState = .running)
    (hnone : s.fault.cause = .noFault → s.fault.pc = 0 ∧ s.fault.op = 0)
    (hover : s.fault.cause = .stackOverflow → s.pc = s.fault.pc ∧ s.fault.pc.toNat ≤ 0xFFE ∧ n1 s.fault.op = 0x2) :
    s.Inv :=
  ⟨hmem, hdepth, hslots, hnone, hover, fun h => absurd h hrun⟩

/-- The keypad, the script, the outputs, the contents of a canonical memory and a configuration that the stack fits
are free. -/
theorem inv_of_free_parts {s : State} (h : s.Inv) {m : Memory} (hm : m.wf = true) {c : Config}
    (hc : StackFits c.stackDepth s) (keys : BitVec 16) (script : List HostMove) (out : List Output) :
    ({ s with mem := m, config := c, keypad := keys, script := script, out := out } : State).Inv where
  mem := hm
  depth := hc
  running := h.running
  noFault := h.noFault
  faulted := h.faulted
  stopped := fun hs =>
    have r := h.stopped hs
    ⟨r.regs, r.index, r.pc, r.stack, r.dt, r.st, r.fb, r.fault⟩

theorem inv_resetAll (s : State) : s.resetAll.Inv :=
  ⟨wf_resetAll s, withinDepth_resetAll s, fun h => absurd rfl h, fun _ => ⟨rfl, rfl⟩, nofun,
    fun _ => resetButMemory_resetAll s⟩

/-- At a tick boundary the control state may become any but Stopped. -/
theorem inv_setRunState {s : State} (h : s.Inv) (h0 : s.slotsLeft = 0) {r : RunState} (hr : r ≠ .stopped) :
    (s.setRunState r).Inv :=
  inv_of_not_stopped hr h.mem h.depth (fun hne => absurd h0 hne) h.noFault h.faulted

theorem inv_obey {s : State} (hs : s.Inv) (h0 : s.slotsLeft = 0) (c : Command) : (s.obey c).Inv := by
  rcases obey_cases s c with h | ⟨r, hr, h⟩ | h | ⟨c', hfits, h⟩ | ⟨e, h⟩ | ⟨u, b, e, hu, h⟩
  · rw [h]; exact hs
  · rw [h]; exact inv_setRunState hs h0 hr
  · rw [h]; exact inv_resetAll s
  · rw [h]; exact inv_of_free_parts hs hs.mem hfits s.keypad s.script s.out
  · rw [h]; exact inv_of_free_parts hs hs.mem hs.depth s.keypad s.script (s.out ++ [e])
  · have hu : u.Inv := by
      rcases hu with rfl | rfl
      · exact hs
      · exact inv_resetAll s
    rw [h]
    exact inv_of_free_parts hu (Memory.wf_writeBytes hu.mem 0x200 b) hu.depth u.keypad u.script (u.out ++ [e])

theorem inv_tick {s : State} (h : s.Inv) : s.tick.Inv := by
  by_cases hgo : s.runState = .running ∧ s.fault.cause = .noFault
  · obtain ⟨hrun, hf⟩ := hgo
    rw [tick_running hrun hf]
    exact inv_of_not_stopped (by simp [hrun]) h.mem h.depth (fun _ => hrun) h.noFault h.faulted
  · rw [tick_idle (not_and_or.1 hgo)]
    exact h

/-- Every instruction keeps memory in its canonical form. -/
theorem wf_exec {i : Instr} {s t : State} (hs : s.mem.wf = true) (h : exec i s = .next t) : t.mem.wf = true := by
  cases i
  case ret => rcases exec_ret_cases h with ⟨-, rfl⟩ | ⟨top, rest, -, rfl⟩ <;> exact hs
  case call => rcases exec_call_cases h with ⟨-, rfl⟩ | ⟨-, rfl⟩ <;> exact hs
  case ldVxK => rcases exec_ldVxK_cases h with ⟨-, rfl⟩ | ⟨k, -, rfl⟩ <;> exact hs
  case seImm | sneImm | seReg | sneReg | skp | sknp => cases h; rw [skipIf_eq]; exact hs
  case rnd =>
    obtain ⟨xs, n, htaken⟩ := rndTaken_cases s
    cases h
    rw [htaken]
    exact hs
  case ldB => cases h; exact Memory.wf_write (Memory.wf_write (Memory.wf_write hs _ _) _ _) _ _
  case ldMemVx x =>
    obtain ⟨m, hm, hwf⟩ := storeRegs_eq s (regsUpTo x)
    cases h
    rw [hm]
    exact hwf hs
  case ldVxMem x =>
    obtain ⟨v, hv⟩ := loadRegs_eq s (regsUpTo x)
    cases h
    rw [hv]
    exact hs
  -- Every other instruction is one unconditional update of another part.
  all_goals cases h; exact hs

/-- A CALL with a full stack is the one way to change the fault register, and it records the address and the word. -/
theorem exec_fault_cases {i : Instr} {s t : State} (h : exec i s = .next t) :
    t.fault = s.fault ∨ ∃ nnn, t.pc = s.pc - 2 ∧ t.fault = ⟨.stackOverflow, s.pc - 2, encode (.call nnn)⟩ := by
  by_cases hw : Part.fault ∈ mayWrite i
  · obtain ⟨nnn, rfl⟩ := fault_mem_mayWrite hw
    rcases exec_call_cases h with ⟨-, rfl⟩ | ⟨-, rfl⟩
    · exact .inl rfl
    · exact .inr ⟨nnn, rfl, rfl⟩
  · exact .inl (exec_keepsAllBut h .fault hw)

theorem n1_encode_call (nnn : Addr12) : n1 (encode (.call nnn)) = 0x2 := by
  simp [encode, formatA_eq]

/-- A slot in a running block keeps the invariant. -/
theorem inv_executeOne {s t : State} (hs : s.Inv) (hrun : s.runState = .running) (h : executeOne s = .next t) :
    t.Inv := by
  have hmoved {p : Word} (out : List Output) (hf : s.fault.cause = .noFault) : ((s.setOut out).setPc p).Inv :=
    inv_of_not_stopped (by simp [hrun]) hs.mem hs.depth hs.running hs.noFault (by simp [hf])
  rcases executeOne_cases h with ⟨-, rfl⟩ | ⟨hf, -, rfl⟩ | ⟨hf, -, -, rfl⟩ | ⟨hf, hpc, i, u, -, hexec, rfl⟩
  · exact hs
  · exact hmoved s.out hf
  · exact hmoved _ hf
  · have hframe := exec_keepsAllBut hexec
    have hurun : u.runState = .running :=
      (hframe .runState (not_mem_mayWrite_of_hostPart i .runState (by decide))).trans hrun
    have hmem : u.mem.wf = true := wf_exec (s := s.fetched) hs.mem hexec
    have hdepth : u.WithinDepth := withinDepth_exec (s := s.fetched) hs.depth hexec
    rcases exec_fault_cases hexec with hfault | ⟨nnn, hupc, hfault⟩
    · have hfault : u.fault = s.fault := hfault
      exact inv_of_not_stopped (by simp [hurun]) hmem hdepth (fun _ => hurun) (by simpa [hfault] using hs.noFault)
        (by simp [hfault, hf])
    · have hback : s.fetched.pc - 2 = s.pc := by simp [fetched_eq]
      have hinside : s.pc.toNat ≤ 0xFFE := by omega
      rw [hback] at hupc hfault
      exact inv_of_not_stopped (by simp [hurun]) hmem hdepth (fun _ => hurun) (by simp [hfault])
        (fun _ => by simpa [hfault, hupc, n1_encode_call] using hinside)

/-- The state a slot starts from has the invariant and is Running. -/
theorem inv_of_slotNext {s u : State} (hs : s.Inv) (h : SlotNext s u) : u.Inv ∧ u.runState = .running := by
  obtain ⟨n, rest, hslots, rfl, -⟩ := h
  have hrun : s.runState = .running := hs.running (by omega)
  exact ⟨inv_of_not_stopped (by simp [hrun]) hs.mem hs.depth (fun _ => hrun) hs.noFault hs.faulted, hrun⟩

theorem inv_step {s t : State} (hs : s.Inv) (h : step s = .next t) : t.Inv := by
  have hmove (keys : BitVec 16) (rest : List HostMove) : (((s.setOut []).setScript rest).setKeypad keys).Inv :=
    inv_of_free_parts hs hs.mem hs.depth keys rest []
  rcases step_next_cases h with ⟨keys, rest, -, rfl⟩ | ⟨c, rest, -, h0, rfl⟩ | ⟨rest, -, rfl⟩ | ⟨u, hslot, hexec⟩
  · exact hmove keys rest
  · exact inv_obey (hmove s.keypad rest) h0 c
  · exact inv_tick (hmove s.keypad rest)
  · obtain ⟨hu, hrun⟩ := inv_of_slotNext hs hslot
    exact inv_executeOne hu hrun hexec

/-- Settles O58: each of the four kinds of step keeps the invariant. -/
theorem everyStepKeepsInvariant : Obligations.EveryStepKeepsInvariant := fun _ _ hs h => inv_step hs h

end Sys2Proof.Proofs
end

section
/-! The proofs of the family 20_memory: what a read of memory gives after a write, and the word of the fetch. -/

namespace Sys2Proof.Proofs

open Sys2Proof Sys2Proof.Machine Sys2Proof.Claims

/-! ### Memory in the state -/

/-- Nothing lies above 0xFFF, and no address is reduced (spec 20_memory R40, decision D2). -/
theorem memRead_of_gt (s : State) {a : Nat} (ha : a > 0xFFF) : s.memRead a = 0x00 := Memory.read_of_gt s.mem ha

theorem memRead_memWrite_self {s : State} (h : s.mem.wf = true) {a : Nat} (ha : a ≤ 0xFFF) (x : Byte) :
    (s.memWrite a x).memRead a = x := Memory.read_write_self h x ha

/-- A write leaves every other address alone, and every address when it is discarded (spec 20_memory R41). -/
theorem memRead_memWrite_of_not_written {s : State} (h : s.mem.wf = true) {a b : Nat} (hb : a ≤ 0xFFF → b ≠ a) (x : Byte) :
    (s.memWrite a x).memRead b = s.memRead b := by
  rw [memRead_memWrite h, if_neg]
  rintro ⟨hba, ha⟩
  exact hb ha hba

theorem keepsAllBut_memWrite (s : State) (a : Nat) (x : Byte) : KeepsAllBut [.mem] s (s.memWrite a x) :=
  keepsAllBut_setMem s _

/-- Settles O25: the byte written, the bytes beside it and the parts beside memory are one lemma each. -/
theorem memoryReadAfterWrite : Obligations.MemoryReadAfterWrite :=
  ⟨fun s _ ha => memRead_of_gt s ha, fun s a x h =>
    ⟨fun ha => memRead_memWrite_self h ha x, fun _ hb => memRead_memWrite_of_not_written h hb x,
      keepsAllBut_memWrite s a x⟩⟩

/-! ### The word of the fetch -/

theorem toNat_fetchWord (s : State) :
    s.fetchWord.toNat = (s.memRead s.pc.toNat).toNat * 256 + (s.memRead (s.pc.toNat + 1)).toNat :=
  toNat_wordOfBytes _ _

/-- The nibbles of the fetched word: those of the byte at pc, then those of the byte after it. -/
theorem fetchWord_eq_ofNibbles (s : State) :
    s.fetchWord = ofNibbles
      ((s.memRead s.pc.toNat).extractLsb' 4 4) ((s.memRead s.pc.toNat).extractLsb' 0 4)
      ((s.memRead (s.pc.toNat + 1)).extractLsb' 4 4) ((s.memRead (s.pc.toNat + 1)).extractLsb' 0 4) :=
  wordOfBytes_eq _ _

/-- Settles O38: the fetched word is put together from the nibbles of its two bytes, so each is read back. -/
theorem fetchIsBigEndian : Obligations.FetchIsBigEndian := by
  intro s
  refine ⟨toNat_fetchWord s, ?_⟩
  rw [fetchWord_eq_ofNibbles]
  exact ⟨n1_ofNibbles .., n2_ofNibbles .., n3_ofNibbles .., n4_ofNibbles ..⟩

end Sys2Proof.Proofs
end

section
/-! The proofs of the family 30_encoding. Three case analyses carry them: over the instructions (decoding an encoding),
over the rows of the opcode map (the case analysis of R60 gives what the row builds), and over the branches of R60 (each
gives an instruction whose encoding is the word). -/

namespace Sys2Proof.Proofs

open Sys2Proof Sys2Proof.Laws

/-! ### From an instruction to its word and back -/

theorem fieldN_formatR {n : Nat} (hn : n ≤ 15) (top : Nibble) (x y : Reg) :
    fieldN (formatR top x y (BitVec.ofNat 4 n)) = n := by
  rw [fieldN, n4_formatR, BitVec.toNat_ofNat]
  exact Nat.mod_eq_of_lt (by omega)

/-- A word that matches a row decodes to the instruction the row builds from its fields. -/
theorem decode_eq_of_index (k : Fin 34) {op : Word} {i : Instr}
    (hfixed : op &&& (opcodeMap.get k).mask = (opcodeMap.get k).pattern) (hbuild : (opcodeMap.get k).build op = i) :
    decode op = .ok i := by
  rw [decode_of_index k hfixed, hbuild]

theorem decode_formatA (k : Fin 34) {top : Nibble} {nnn : Addr12} {make : Addr12 → Instr}
    (hfixed : formatA top nnn &&& (opcodeMap.get k).mask = (opcodeMap.get k).pattern)
    (hbuild : (opcodeMap.get k).build = fun op => make (fieldNNN op)) : decode (formatA top nnn) = .ok (make nnn) :=
  decode_eq_of_index k hfixed (by simp only [hbuild, fieldNNN_formatA])

theorem decode_formatB (k : Fin 34) {top : Nibble} {x : Reg} {kk : Byte} {make : Reg → Byte → Instr}
    (hfixed : formatB top x kk &&& (opcodeMap.get k).mask = (opcodeMap.get k).pattern)
    (hbuild : (opcodeMap.get k).build = fun op => make (fieldX op) (fieldKK op)) :
    decode (formatB top x kk) = .ok (make x kk) :=
  decode_eq_of_index k hfixed (by simp only [hbuild, fieldX_formatB, fieldKK_formatB])

/-- Format X: the byte is the sub-operation, and the row reads only the register. -/
theorem decode_formatX (k : Fin 34) {top : Nibble} {x : Reg} {kk : Byte} {make : Reg → Instr}
    (hfixed : formatB top x kk &&& (opcodeMap.get k).mask = (opcodeMap.get k).pattern)
    (hbuild : (opcodeMap.get k).build = fun op => make (fieldX op)) : decode (formatB top x kk) = .ok (make x) :=
  decode_eq_of_index k hfixed (by simp only [hbuild, fieldX_formatB])

/-- Format R: the low nibble is the sub-operation, and the row reads only the registers. -/
theorem decode_formatR (k : Fin 34) {top low : Nibble} {x y : Reg} {make : Reg → Reg → Instr}
    (hfixed : formatR top x y low &&& (opcodeMap.get k).mask = (opcodeMap.get k).pattern)
    (hbuild : (opcodeMap.get k).build = fun op => make (fieldX op) (fieldY op)) :
    decode (formatR top x y low) = .ok (make x y) :=
  decode_eq_of_index k hfixed (by simp only [hbuild, fieldX_formatR, fieldY_formatR])

/-- The low nibble is kept, as one that is not decoded (R63). -/
theorem decode_formatR_low (k : Fin 34) {top low : Nibble} {x y : Reg} {make : Reg → Reg → Nibble → Instr}
    (hfixed : formatR top x y low &&& (opcodeMap.get k).mask = (opcodeMap.get k).pattern)
    (hbuild : (opcodeMap.get k).build = fun op => make (fieldX op) (fieldY op) (n4 op)) :
    decode (formatR top x y low) = .ok (make x y low) :=
  decode_eq_of_index k hfixed (by simp only [hbuild, fieldX_formatR, fieldY_formatR, n4_formatR])

/-- Format D: the low nibble is the sprite height. -/
theorem decode_formatD (k : Fin 34) {top : Nibble} {x y : Reg} {n : Nat} {make : Reg → Reg → Nat → Instr}
    (hn : n ≤ 15) (hfixed : formatR top x y (BitVec.ofNat 4 n) &&& (opcodeMap.get k).mask = (opcodeMap.get k).pattern)
    (hbuild : (opcodeMap.get k).build = fun op => make (fieldX op) (fieldY op) (fieldN op)) :
    decode (formatR top x y (BitVec.ofNat 4 n)) = .ok (make x y n) :=
  decode_eq_of_index k hfixed (by simp only [hbuild, fieldX_formatR, fieldY_formatR, fieldN_formatR hn])

theorem decode_encode {i : Instr} (hwf : i.wellFormed = true) : decode (encode i) = .ok i := by
  cases i with
  | cls => exact decode_eq_of_index 0 FixedBits.cls rfl
  | ret => exact decode_eq_of_index 1 FixedBits.ret rfl
  | jp nnn => exact decode_formatA 2 (FixedBits.jp nnn) rfl
  | call nnn => exact decode_formatA 3 (FixedBits.call nnn) rfl
  | seImm x kk => exact decode_formatB 4 (FixedBits.seImm x kk) rfl
  | sneImm x kk => exact decode_formatB 5 (FixedBits.sneImm x kk) rfl
  | seReg x y ignored => exact decode_formatR_low 6 (FixedBits.seReg x y ignored) rfl
  | ldImm x kk => exact decode_formatB 7 (FixedBits.ldImm x kk) rfl
  | addImm x kk => exact decode_formatB 8 (FixedBits.addImm x kk) rfl
  | ldReg x y => exact decode_formatR 9 (FixedBits.ldReg x y) rfl
  | orReg x y => exact decode_formatR 10 (FixedBits.orReg x y) rfl
  | andReg x y => exact decode_formatR 11 (FixedBits.andReg x y) rfl
  | xorReg x y => exact decode_formatR 12 (FixedBits.xorReg x y) rfl
  | addReg x y => exact decode_formatR 13 (FixedBits.addReg x y) rfl
  | subReg x y => exact decode_formatR 14 (FixedBits.subReg x y) rfl
  | shr x y => exact decode_formatR 15 (FixedBits.shr x y) rfl
  | subn x y => exact decode_formatR 16 (FixedBits.subn x y) rfl
  | shl x y => exact decode_formatR 17 (FixedBits.shl x y) rfl
  | sneReg x y ignored => exact decode_formatR_low 18 (FixedBits.sneReg x y ignored) rfl
  | ldI nnn => exact decode_formatA 19 (FixedBits.ldI nnn) rfl
  | jpV0 nnn => exact decode_formatA 20 (FixedBits.jpV0 nnn) rfl
  | rnd x kk => exact decode_formatB 21 (FixedBits.rnd x kk) rfl
  | drw x y n => exact decode_formatD 22 (of_decide_eq_true hwf) (FixedBits.drw x y n) rfl
  | skp x => exact decode_formatX 23 (FixedBits.skp x) rfl
  | sknp x => exact decode_formatX 24 (FixedBits.sknp x) rfl
  | ldVxDt x => exact decode_formatX 25 (FixedBits.ldVxDt x) rfl
  | ldVxK x => exact decode_formatX 26 (FixedBits.ldVxK x) rfl
  | ldDtVx x => exact decode_formatX 27 (FixedBits.ldDtVx x) rfl
  | ldStVx x => exact decode_formatX 28 (FixedBits.ldStVx x) rfl
  | addI x => exact decode_formatX 29 (FixedBits.addI x) rfl
  | ldF x => exact decode_formatX 30 (FixedBits.ldF x) rfl
  | ldB x => exact decode_formatX 31 (FixedBits.ldB x) rfl
  | ldMemVx x => exact decode_formatX 32 (FixedBits.ldMemVx x) rfl
  | ldVxMem x => exact decode_formatX 33 (FixedBits.ldVxMem x) rfl

/-- Settles O2: each instruction's word has the fixed bits of its row, and the row reads its fields back. -/
theorem decodeOfEncodeIsTheInstruction : Obligations.DecodeOfEncodeIsTheInstruction := fun _ hwf => decode_encode hwf

/-! ### A word from its fields -/

theorem formatR_of_fields {op : Word} {top low : Nibble} (htop : (n1 op).toNat = top.toNat)
    (hlow : (n4 op).toNat = low.toNat) : formatR top (fieldX op) (fieldY op) low = op := by
  rw [← BitVec.eq_of_toNat_eq htop, ← BitVec.eq_of_toNat_eq hlow]
  exact ofNibbles_eta op

theorem formatB_of_fields {op : Word} {top : Nibble} {kk : Byte} (htop : (n1 op).toNat = top.toNat)
    (hkk : fieldKK op = kk) : formatB top (fieldX op) kk = op := by
  have hhigh : kk.extractLsb' 4 4 = n3 op := by
    rw [← hkk]
    exact BitVec.extractLsb'_extractLsb'_of_le (by omega)
  have hlow : kk.extractLsb' 0 4 = n4 op := by
    rw [← hkk]
    exact BitVec.extractLsb'_extractLsb'_of_le (by omega)
  rw [formatB_eq, hhigh, hlow]
  exact formatR_of_fields htop rfl

theorem formatA_of_fields {op : Word} {top : Nibble} (htop : (n1 op).toNat = top.toNat) :
    formatA top (fieldNNN op) = op := by
  have hx : (fieldNNN op).extractLsb' 8 4 = n2 op := BitVec.extractLsb'_extractLsb'_of_le (by omega)
  have hy : (fieldNNN op).extractLsb' 4 4 = n3 op := BitVec.extractLsb'_extractLsb'_of_le (by omega)
  have hn : (fieldNNN op).extractLsb' 0 4 = n4 op := BitVec.extractLsb'_extractLsb'_of_le (by omega)
  rw [formatA_eq, hx, hy, hn]
  exact formatR_of_fields htop rfl

/-! ### The branches of R60 give an instruction that the word encodes -/

/-- Branch by branch (`h_1` is the first nibble 0x0, `h_16` is 0xF): the format of R58 is put together from the fields
that the branch has tested and those it passes on. -/
theorem encode_of_dispatchR60 {op : Word} {i : Instr} (h : dispatchR60 op = some i) :
    encode i = op ∧ i.wellFormed = true := by
  unfold dispatchR60 at h
  split at h
  case h_1 => split_ifs at h <;> cases h <;> exact ⟨.symm ‹_›, rfl⟩
  case h_2 | h_3 | h_11 | h_12 => cases h; exact ⟨formatA_of_fields ‹_›, rfl⟩
  case h_4 | h_5 | h_7 | h_8 | h_13 => cases h; exact ⟨formatB_of_fields ‹_› rfl, rfl⟩
  case h_6 | h_10 => cases h; exact ⟨formatR_of_fields ‹_› rfl, rfl⟩
  case h_9 => split at h <;> cases h <;> exact ⟨formatR_of_fields ‹_› ‹_›, rfl⟩
  case h_14 =>
    have hheight : BitVec.ofNat 4 (fieldN op) = n4 op := BitVec.ofNat_toNat 4 (n4 op)
    cases h
    exact ⟨formatR_of_fields ‹_› (by rw [hheight]), decide_eq_true (Nat.le_of_lt_succ (n4 op).isLt)⟩
  case h_15 | h_16 => split_ifs at h <;> cases h <;> exact ⟨formatB_of_fields ‹_› ‹_›, rfl⟩
  case h_17 => cases h

/-! ### The rows of the opcode map give what R60 gives -/

/-- A field of which a row fixes every bit. -/
theorem extractLsb'_of_fixed {op mask pattern : Word} (h : op &&& mask = pattern) (start len : Nat)
    (hmask : mask.extractLsb' start len = BitVec.allOnes len) :
    op.extractLsb' start len = pattern.extractLsb' start len := by
  rw [← h, BitVec.extractLsb'_and, hmask, BitVec.and_allOnes]

theorem n1_of_fixed {op mask pattern : Word} (h : op &&& mask = pattern) (hmask : n1 mask = 0xF) : n1 op = n1 pattern :=
  extractLsb'_of_fixed h 12 4 hmask

theorem n4_of_fixed {op mask pattern : Word} (h : op &&& mask = pattern) (hmask : n4 mask = 0xF) : n4 op = n4 pattern :=
  extractLsb'_of_fixed h 0 4 hmask

theorem fieldKK_of_fixed {op mask pattern : Word} (h : op &&& mask = pattern) (hmask : fieldKK mask = 0xFF) :
    fieldKK op = fieldKK pattern :=
  extractLsb'_of_fixed h 0 8 hmask

/-- The case analysis of R60 gives a word that matches the row what the row builds. -/
def AgreesWithR60 (r : Row) : Prop := ∀ op : Word, op &&& r.mask = r.pattern → dispatchR60 op = some (r.build op)

theorem agreesWithR60_full {pattern : Word} {i : Instr} (h : dispatchR60 pattern = some i) :
    AgreesWithR60 ⟨pattern, 0xFFFF, fun _ => i⟩ := by
  intro op hop
  have hand : op &&& 0xFFFF = op := BitVec.and_allOnes
  rw [← hand, hop]
  exact h

theorem rows1to9_agreeWithR60 : ∀ r ∈ rows1to9, AgreesWithR60 r := by
  intro r hr
  fin_cases hr
  iterate 2 exact agreesWithR60_full rfl
  all_goals
    intro op h
    rw [dispatchR60, n1_of_fixed h rfl]
    rfl

theorem rows10to18_agreeWithR60 : ∀ r ∈ rows10to18, AgreesWithR60 r := by
  intro r hr op h
  fin_cases hr
  all_goals
    rw [dispatchR60, n1_of_fixed h rfl, n4_of_fixed h rfl]
    rfl

theorem rows19to25_agreeWithR60 : ∀ r ∈ rows19to25, AgreesWithR60 r := by
  intro r hr op h
  fin_cases hr
  iterate 5
    · rw [dispatchR60, n1_of_fixed h rfl]
      rfl
  all_goals
    rw [dispatchR60, n1_of_fixed h rfl, fieldKK_of_fixed h rfl]
    rfl

theorem rows26to34_agreeWithR60 : ∀ r ∈ rows26to34, AgreesWithR60 r := by
  intro r hr op h
  fin_cases hr
  all_goals
    rw [dispatchR60, n1_of_fixed h rfl, fieldKK_of_fixed h rfl]
    rfl

theorem opcodeMap_agreesWithR60 : ∀ r ∈ opcodeMap, AgreesWithR60 r := by
  simp only [opcodeMap, List.forall_mem_append]
  exact ⟨⟨⟨rows1to9_agreeWithR60, rows10to18_agreeWithR60⟩, rows19to25_agreeWithR60⟩, rows26to34_agreeWithR60⟩

/-! ### The two decoders agree -/

/-- From the map to R60 by the row that matches; from R60 to the map by the encoding of what it gives. -/
theorem decode_eq_ok_iff {op : Word} {i : Instr} : decode op = .ok i ↔ dispatchR60 op = some i := by
  constructor
  · intro h
    obtain ⟨r, hr, hfixed, rfl⟩ := decode_ok h
    exact opcodeMap_agreesWithR60 r hr op hfixed
  · intro h
    obtain ⟨hop, hwf⟩ := encode_of_dispatchR60 h
    rw [← hop, decode_encode hwf]

theorem decode_eq_undefined_iff {op : Word} : decode op = .error (.undefinedWord op) ↔ dispatchR60 op = none := by
  constructor
  · intro h
    rw [Option.eq_none_iff_forall_ne_some]
    intro i hi
    rw [decode_eq_ok_iff.2 hi] at h
    cases h
  · intro h
    refine (decode_total op).resolve_left ?_
    rintro ⟨i, hi⟩
    rw [decode_eq_ok_iff.1 hi] at h
    cases h

/-- Settles O3: what decodes is what R60 gives, and R60 gives an instruction that the word encodes. -/
theorem encodeOfDecodeIsTheWord : Obligations.EncodeOfDecodeIsTheWord :=
  fun _ _ h => encode_of_dispatchR60 (decode_eq_ok_iff.1 h)

/-- Settles O4, by what R60 gives for the word. -/
theorem opcodeMapIsTheCaseAnalysis : Obligations.OpcodeMapIsTheCaseAnalysis := by
  intro op
  cases h : dispatchR60 op with
  | some i => exact decode_eq_ok_iff.2 h
  | none => exact decode_eq_undefined_iff.2 h

/-! ### The UNDEFINED words -/

theorem ite_some_eq_none_iff {α : Type} {c : Prop} [Decidable c] {a : α} {o : Option α} :
    (if c then some a else o) = none ↔ ¬ c ∧ o = none := by
  split <;> simp [*]

/-- R60 gives nothing in the four groups that test more than the first nibble, where no test succeeds. -/
theorem dispatchR60_eq_none_iff (op : Word) : dispatchR60 op = none ↔
    (n1 op = 0x0 ∧ op ≠ 0x00E0 ∧ op ≠ 0x00EE) ∨
    (n1 op = 0x8 ∧ n4 op ∈ [0x8, 0x9, 0xA, 0xB, 0xC, 0xD, 0xF]) ∨
    (n1 op = 0xE ∧ fieldKK op ∉ [0x9E, 0xA1]) ∨
    (n1 op = 0xF ∧ fieldKK op ∉ [0x07, 0x0A, 0x15, 0x18, 0x1E, 0x29, 0x33, 0x55, 0x65]) := by
  simp only [← BitVec.toNat_inj (x := n1 op), ← BitVec.toNat_inj (x := n4 op), List.mem_cons, List.not_mem_nil,
    or_false, not_or]
  unfold dispatchR60
  split
  case h_1 hn | h_15 hn | h_16 hn => simp [hn, ite_some_eq_none_iff]
  case h_9 hn =>
    split
    case h_10 =>
      have hlow : (n4 op).toNat < 16 := (n4 op).isLt
      refine iff_of_true rfl (.inr (.inl ⟨hn, ?_⟩))
      interval_cases (n4 op).toNat <;> simp_all
    case h_1 hlow | h_2 hlow | h_3 hlow | h_4 hlow | h_5 hlow | h_6 hlow | h_7 hlow | h_8 hlow | h_9 hlow =>
      simp [hn, hlow]
  case h_17 =>
    have htop : (n1 op).toNat < 16 := (n1 op).isLt
    interval_cases (n1 op).toNat <;> contradiction
  case h_2 hn | h_3 hn | h_4 hn | h_5 hn | h_6 hn | h_7 hn | h_8 hn | h_10 hn | h_11 hn | h_12 hn | h_13 hn | h_14 hn =>
    simp [hn]

/-- Settles O5: the words are read off the branches of R60 that give nothing. -/
theorem undefinedWordsAreTheListed : Obligations.UndefinedWordsAreTheListed :=
  fun op => decode_eq_undefined_iff.trans (dispatchR60_eq_none_iff op)

/-- Settles O1: each word by evaluating the decoder. -/
theorem knownWordsDecode : Obligations.KnownWordsDecode := by
  unfold Obligations.KnownWordsDecode
  decide

end Sys2Proof.Proofs
end

section
/-! The proofs of the family 40_execute_cycle: the state of `SlotNext` is where the core moves from, so a step that is a
slot is `executeOne` of it; and what a slot does with the word under pc. -/

namespace Sys2Proof.Proofs

open Sys2Proof Sys2Proof.Machine Sys2Proof.Claims

/-! ### The step that is a slot -/

/-- The three scripts with which a step is a slot: quiet, letting the core move, a command that waits. -/
theorem turn_of_slotNext {s u : State} (h : SlotNext s u) :
    ∃ v n, (s.setOut []).turn = .core v ∧ v.slotsLeft = n + 1 ∧ u = v.setSlotsLeft n := by
  obtain ⟨n, rest, hslots, rfl, hscript⟩ := h
  refine ⟨(s.setOut []).setScript rest, n, ?_, hslots, rfl⟩
  rcases hscript with ⟨hquiet, rfl⟩ | hpass | ⟨c, later, hcommand, rfl⟩
  · rw [turn_quiet (s := s.setOut []) hquiet, ← hquiet]
    rfl
  · exact turn_pass (s := s.setOut []) hpass
  · exact turn_command_waits (s := s.setOut []) hcommand (show s.slotsLeft ≠ 0 by omega)

theorem step_of_slotNext {s u : State} (h : SlotNext s u) : step s = executeOne u := by
  obtain ⟨v, n, hturn, hslots, rfl⟩ := turn_of_slotNext h
  rw [step_core hturn, coreMove_slot hslots]

/-! ### What a slot does with its word -/

/-- A slot whose word decodes runs the instruction on the fetched state and ends with the REG_CHANGE events. -/
theorem executeOne_runs_decoded {s : State} (hf : s.fault.cause = .noFault) (hp : s.pc.toNat ≤ 0xFFE) {i : Instr}
    (hd : decode s.fetchWord = .ok i) :
    ∃ t, exec i s.fetched = .next t ∧ executeOne s = .next (t.setOut (t.out ++ regChanges s t)) := by
  obtain ⟨t, ht⟩ := exec_next i s.fetched
  refine ⟨t, ht, ?_⟩
  rw [executeOne_instr hf hp hd, ht]
  rfl

/-- Inside memory the advance of pc does not wrap. -/
theorem toNat_fetched_pc {s : State} (hp : s.pc.toNat ≤ 0xFFE) : s.fetched.pc.toNat = s.pc.toNat + 2 := by
  have hwrap : s.fetched.pc.toNat = (s.pc.toNat + 2) % 65536 := BitVec.toNat_add s.pc 2
  rw [hwrap]
  exact Nat.mod_eq_of_lt (by omega)

/-- Settles O39: the slot is `executeOne` of its start, whose word decodes. -/
theorem stepRunsDecodedInstruction : Obligations.StepRunsDecodedInstruction := by
  intro s u i hslot hf hp hd
  rw [step_of_slotNext hslot]
  exact executeOne_runs_decoded hf hp hd

/-- Settles O40: a slot past the end of memory only advances pc, and an UNDEFINED word only leaves the fetched state. -/
theorem noOpSlots : Obligations.NoOpSlots :=
  ⟨fun _ _ hslot => step_of_slotNext hslot,
   fun s hf hp => ⟨s.setPc (s.pc + 2), executeOne_pastEnd hf hp, BitVec.toNat_add s.pc 2, keepsAllBut_setPc s _⟩,
   fun s hf hp hd => ⟨s.fetched, executeOne_undefined hf hp hd, toNat_fetched_pc hp, rfl,
     (keepsAllBut_fetched s).mono (by simp)⟩⟩

end Sys2Proof.Proofs
end

section
/-! The proofs of the family 41_flow: RET, the jumps, CALL in its two cases, the skips, and a RET after a CALL. The law of
each instruction gives the state it answers. -/

namespace Sys2Proof.Proofs

open Sys2Proof Sys2Proof.Machine Sys2Proof.Claims Sys2Proof.Laws

/-! ### The rows of the opcode map -/

theorem rowDecodes_of_index (k : Fin 34) :
    RowDecodes (opcodeMap.get k).pattern (opcodeMap.get k).mask (opcodeMap.get k).build :=
  fun _ hfixed => decode_of_index k hfixed

/-! ### The operands -/

theorem toNat_addrWord (nnn : Addr12) : (addrWord nnn).toNat = nnn.toNat := BitVec.toNat_setWidth_of_le (by decide)

theorem toNat_byteWord (b : Byte) : (byteWord b).toNat = b.toNat := BitVec.toNat_setWidth_of_le (by decide)

/-- R79: the largest sum is 0xFF + 0xFFF, which 16 bits hold. -/
theorem toNat_byteWord_add_addrWord (b : Byte) (nnn : Addr12) :
    (byteWord b + addrWord nnn).toNat = b.toNat + nnn.toNat := by
  have hb : b.toNat < 256 := b.isLt
  have hnnn : nnn.toNat < 4096 := nnn.isLt
  rw [BitVec.toNat_add, toNat_byteWord, toNat_addrWord]
  exact Nat.mod_eq_of_lt (by omega)

theorem jumpOffset_v0 {s : State} (nnn : Addr12) (h : s.config.jumpQuirk = .v0) : s.jumpOffset nnn = s.reg 0 := by
  simp only [State.jumpOffset, h]

theorem jumpOffset_vx {s : State} (nnn : Addr12) (h : s.config.jumpQuirk = .vx) :
    s.jumpOffset nnn = s.reg (topReg nnn) := by
  simp only [State.jumpOffset, h]

/-! ### The jumps -/

/-- Settles O7: row 3 of the map, and pc is the operand as a 16-bit value. -/
theorem jumpAbsolute : Obligations.JumpAbsolute :=
  ⟨rowDecodes_of_index 2,
   fun nnn s => ⟨_, exec_jp nnn s, toNat_addrWord nnn, keepsAllBut_setPc s _⟩⟩

/-- Settles O9: row 21 of the map; JUMP_QUIRK selects the register, and the sum does not wrap. -/
theorem jumpWithOffset : Obligations.JumpWithOffset := by
  refine ⟨rowDecodes_of_index 20, fun nnn s => ⟨_, exec_jpV0 nnn s, fun hv0 => ?_, fun hvx => ?_,
    keepsAllBut_setPc s _⟩⟩
  · rw [setPc_pc, toNat_byteWord_add_addrWord, jumpOffset_v0 nnn hv0]
  · rw [setPc_pc, toNat_byteWord_add_addrWord, jumpOffset_vx nnn hvx, topReg]

/-! ### The call stack -/

theorem stackFull_eq_false_of_not_full {s : State} (h : ¬ Full s) : s.stackFull = false :=
  Bool.eq_false_iff.2 (mt (stackFull_iff s).1 h)

/-- Settles O6: row 2 of the map, and the two cases of the stack. -/
theorem returnFromSubroutine : Obligations.ReturnFromSubroutine := by
  refine ⟨rowDecodes_of_index 1, fun s => ?_⟩
  obtain ⟨t, ht⟩ := exec_next .ret s
  refine ⟨t, ht, ?_, ?_, exec_keepsAllBut ht⟩
  · intro top rest hstack
    rw [exec_ret_cons hstack] at ht
    cases ht
    exact ⟨rfl, rfl⟩
  · intro hstack
    rw [exec_ret_nil hstack] at ht
    cases ht
    exact ⟨rfl, hstack⟩

/-- Settles O8: row 4 of the map; with room the advanced pc is pushed, and a full stack records the address of the fetch
and the word fetched there, which is the one that encodes the CALL (D4, D5). -/
theorem callSubroutine : Obligations.CallSubroutine := by
  refine ⟨rowDecodes_of_index 3, fun nnn s hroom => ?_, fun nnn s a op hfull hpc hdecode => ?_⟩
  · exact ⟨_, exec_call_room nnn (stackFull_eq_false_of_not_full hroom), rfl, toNat_addrWord nnn,
      (keepsAllBut_append (keepsAllBut_setStack s _) (keepsAllBut_setPc _ _)).mono (by decide)⟩
  · have haddress : s.pc - 2 = a := by rw [hpc, BitVec.add_sub_cancel]
    have hword : encode (.call nnn) = op := (encodeOfDecodeIsTheWord op _ hdecode).1
    have hexec := exec_call_full nnn ((stackFull_iff s).2 hfull)
    rw [haddress, hword] at hexec
    exact ⟨_, hexec, rfl, rfl, keepsAllBut_append (keepsAllBut_setPc s a) (keepsAllBut_setFault _ _)⟩

/-- Settles O37: the CALL leaves the advanced pc on top of the old stack, and the RET pops it. -/
theorem returnUndoesCall : Obligations.ReturnUndoesCall := by
  intro nnn s t u hroom hcall hstack
  rw [exec_call_room nnn (stackFull_eq_false_of_not_full hroom)] at hcall
  cases hcall
  exact ⟨_, exec_ret_cons hstack, rfl, rfl⟩

/-! ### The skips -/

/-- A skip on a test that decides `p`. -/
theorem skips_setPc_ite (s : State) {test : Bool} {p : Prop} (htest : test = true ↔ p) :
    Skips p s (s.setPc (if test then s.pc + 2 else s.pc)) :=
  ⟨fun hp => if_pos (htest.2 hp), fun hp => if_neg (mt htest.1 hp), keepsAllBut_setPc s _⟩

/-- Settles O10: rows 5 and 6 of the map, and the two tests of a register and a byte. -/
theorem skipOnImmediate : Obligations.SkipOnImmediate :=
  ⟨rowDecodes_of_index 4, rowDecodes_of_index 5, fun x kk s =>
    ⟨⟨_, exec_seImm x kk s, skips_setPc_ite s beq_iff_eq⟩, ⟨_, exec_sneImm x kk s, skips_setPc_ite s bne_iff_ne⟩⟩⟩

/-- Settles O11: rows 7 and 19 of the map, and the two tests of two registers; the low nibble is not read. -/
theorem skipOnRegister : Obligations.SkipOnRegister :=
  ⟨rowDecodes_of_index 6, rowDecodes_of_index 18, fun x y ignored s =>
    ⟨⟨_, exec_seReg x y ignored s, skips_setPc_ite s beq_iff_eq⟩,
      ⟨_, exec_sneReg x y ignored s, skips_setPc_ite s bne_iff_ne⟩⟩⟩

end Sys2Proof.Proofs
end

section
/-! The proofs of the family 42_alu: the loads, the arithmetic and logic instructions, the shifts and RND. The result of
each is a fact about bytes; the registers it leaves alone are those of the write to V[x], or of the result and its flag. -/

namespace Sys2Proof.Proofs

open Sys2Proof Sys2Proof.Machine Sys2Proof.Claims

/-! ### A write to V[x], and a result with its flag -/

theorem onlyReg_setReg (s : State) (x : Reg) (v : Byte) : OnlyReg x s (s.setReg x v) :=
  ⟨fun _ hr => reg_setReg_of_ne s v hr, keepsAllBut_setReg s x v⟩

theorem onlyRegAndVF_setResultThenFlag (s : State) (x : Reg) (v : Byte) (f : Bool) :
    OnlyRegAndVF x s (s.setResultThenFlag x v f) :=
  ⟨fun _ hx hvf => reg_setResultThenFlag_other s v f (not_or.2 ⟨hx, hvf⟩), keepsAllBut_setResultThenFlag s x v f⟩

theorem reg_setResultThenFlag_destination (s : State) {x : Reg} (v : Byte) (f : Bool) (hx : x ≠ regVF) :
    (s.setResultThenFlag x v f).reg x = v :=
  (reg_setResultThenFlag_of_ne s x v f hx).trans (if_pos rfl)

/-- An instruction that ends with a result and its flag, by the number `n` that the result stands for. -/
theorem exec_resultThenFlag {i : Instr} {s : State} {x : Reg} {v : Byte} {f : Bool} {n : Nat}
    (h : exec i s = .next (s.setResultThenFlag x v f)) (hv : v.toNat = n) :
    ∃ t, exec i s = .next t ∧ (x ≠ regVF → (t.reg x).toNat = n) ∧ t.reg regVF = flagByte f ∧ OnlyRegAndVF x s t :=
  ⟨_, h, fun hx => (congrArg BitVec.toNat (reg_setResultThenFlag_destination s v f hx)).trans hv,
    reg_setResultThenFlag_vf s x v f, onlyRegAndVF_setResultThenFlag s x v f⟩

/-! ### The results and the flags as numbers -/

theorem toNat_sub_byte (a b : Byte) : (a - b).toNat = (256 + a.toNat - b.toNat) % 256 := by
  have hb : b.toNat < 256 := b.isLt
  rw [BitVec.toNat_sub]
  omega

theorem toNat_halved (a : Byte) : (a >>> 1).toNat = a.toNat / 2 := by
  rw [BitVec.toNat_ushiftRight, Nat.shiftRight_eq_div_pow, pow_one]

theorem toNat_doubled (a : Byte) : (a <<< 1).toNat = a.toNat * 2 % 256 := by
  rw [BitVec.toNat_shiftLeft, Nat.shiftLeft_eq, pow_one]

theorem flagByte_carryOut (a b : Byte) :
    flagByte (carryOut a b) = if a.toNat + b.toNat > 0xFF then 0x01 else 0x00 :=
  if_congr (carryOut_iff a b) rfl rfl

theorem flagByte_notBorrow (a b : Byte) : flagByte (notBorrow a b) = if a.toNat ≥ b.toNat then 0x01 else 0x00 :=
  if_congr (notBorrow_iff a b) rfl rfl

theorem toNat_flagByte (f : Bool) : (flagByte f).toNat = f.toNat := by cases f <;> rfl

theorem toNat_flagByte_droppedLow (a : Byte) : (flagByte (droppedLow a)).toNat = a.toNat % 2 := by
  rw [toNat_flagByte, droppedLow, BitVec.getLsbD, Nat.toNat_testBit, pow_zero, Nat.div_one]

/-- Bit 7 is what remains of a byte after division by 128. -/
theorem toNat_flagByte_droppedHigh (a : Byte) : (flagByte (droppedHigh a)).toNat = a.toNat / 128 := by
  have ha : a.toNat < 256 := a.isLt
  rw [toNat_flagByte, droppedHigh, BitVec.getLsbD, Nat.toNat_testBit]
  omega

/-- Under either SHIFT_QUIRK the source is the register that the statement names. -/
theorem shiftSource_eq_reg (s : State) (x y : Reg) : s.shiftSource x y = s.reg (shiftedReg s x y) := by
  cases hquirk : s.config.shiftQuirk <;> simp [State.shiftSource, shiftedReg, hquirk]

/-! ### Loads, and operations without a flag -/

/-- Settles O12: rows 8 and 10 of the map, and the write to V[x]. -/
theorem loadRegister : Obligations.LoadRegister :=
  ⟨rowDecodes_of_index 7, rowDecodes_of_index 9,
   fun x kk s => ⟨_, exec_ldImm x kk s, reg_setReg_self s x kk, onlyReg_setReg s x kk⟩,
   fun x y s => ⟨_, exec_ldReg x y s, reg_setReg_self s x _, onlyReg_setReg s x _⟩⟩

/-- Settles O13: row 9 of the map; the sum of two bytes is taken mod 256. -/
theorem addImmediateSetsNoFlag : Obligations.AddImmediateSetsNoFlag := by
  refine ⟨rowDecodes_of_index 8, fun x kk s => ⟨_, exec_addImm x kk s, ?_, onlyReg_setReg s x _⟩⟩
  rw [reg_setReg_self, BitVec.toNat_add]

/-- Settles O14: rows 11 to 13 of the map, and bit `k` of each operation on two bytes. -/
theorem logicOperations : Obligations.LogicOperations := by
  refine ⟨rowDecodes_of_index 10, rowDecodes_of_index 11, rowDecodes_of_index 12, fun x y s =>
    ⟨⟨_, exec_orReg x y s, fun k _ => ?_, onlyReg_setReg s x _⟩,
      ⟨_, exec_andReg x y s, fun k _ => ?_, onlyReg_setReg s x _⟩,
      ⟨_, exec_xorReg x y s, fun k _ => ?_, onlyReg_setReg s x _⟩⟩⟩
  · rw [reg_setReg_self, BitVec.getLsbD_or]
  · rw [reg_setReg_self, BitVec.getLsbD_and]
  · rw [reg_setReg_self, BitVec.getLsbD_xor]

/-! ### Operations with a flag -/

/-- Settles O15: row 14 of the map; the sum mod 256, then the carry. -/
theorem addSetsCarry : Obligations.AddSetsCarry := by
  refine ⟨rowDecodes_of_index 13, fun x y s => ?_⟩
  rw [← flagByte_carryOut]
  exact exec_resultThenFlag (exec_addReg x y s) (BitVec.toNat_add _ _)

/-- Settles O16: rows 15 and 17 of the map; the difference mod 256, then NOT borrow, with the operands exchanged in
SUBN. -/
theorem subtractSetsNotBorrow : Obligations.SubtractSetsNotBorrow := by
  refine ⟨rowDecodes_of_index 14, rowDecodes_of_index 16, fun x y s => ?_⟩
  rw [← flagByte_notBorrow, ← flagByte_notBorrow]
  exact ⟨exec_resultThenFlag (exec_subReg x y s) (toNat_sub_byte _ _),
    exec_resultThenFlag (exec_subn x y s) (toNat_sub_byte _ _)⟩

/-- Settles O17: rows 16 and 18 of the map; the source halved or doubled, then the bit that this drops. -/
theorem shiftsSetDroppedBit : Obligations.ShiftsSetDroppedBit := by
  refine ⟨rowDecodes_of_index 15, rowDecodes_of_index 17, fun x y s => ?_⟩
  rw [← shiftSource_eq_reg]
  obtain ⟨t, hshr, hresult, hflag, honly⟩ := exec_resultThenFlag (exec_shr x y s) (toNat_halved _)
  obtain ⟨u, hshl, hresult', hflag', honly'⟩ := exec_resultThenFlag (exec_shl x y s) (toNat_doubled _)
  exact ⟨⟨t, hshr, hresult, hflag ▸ toNat_flagByte_droppedLow _, honly⟩,
    ⟨u, hshl, hresult', hflag' ▸ toNat_flagByte_droppedHigh _, honly'⟩⟩

/-! ### The random byte -/

theorem exec_rnd_frame {x : Reg} {kk : Byte} {s t : State} (h : exec (.rnd x kk) s = .next t) :
    (∀ q, q ≠ x → t.reg q = s.reg q) ∧ KeepsAllBut [.regs, .rnd] s t :=
  ⟨fun _ hq => exec_reg_of_not_mayWriteReg h hq, exec_keepsAllBut h⟩

/-- Settles O18: row 22 of the map, and the two cases of the RND input. -/
theorem randomByteIsMasked : Obligations.RandomByteIsMasked := by
  refine ⟨rowDecodes_of_index 21, fun x kk s r rest hwaiting => ?_, fun x kk s hfree => ?_⟩
  · obtain ⟨hbyte, htaken⟩ := rnd_of_waiting hwaiting
    have hexec := exec_rnd x kk s
    rw [hbyte, htaken] at hexec
    exact ⟨_, hexec, reg_setReg_self _ x _, rfl, rfl, exec_rnd_frame hexec⟩
  · obtain ⟨hbyte, htaken⟩ := rnd_of_free hfree
    have hexec := exec_rnd x kk s
    rw [hbyte, htaken] at hexec
    exact ⟨_, hexec, reg_setReg_self _ x _, hfree, rfl, exec_rnd_frame hexec⟩

end Sys2Proof.Proofs
end

section
/-! The proofs of the family 43_index_memory: the index register, the decimal digits, the register transfers and their
round trip. A store is a run of writes at consecutive addresses, so what it leaves is read off the laws of such runs. -/

namespace Sys2Proof.Proofs

open Sys2Proof Sys2Proof.Machine Sys2Proof.Claims

/-! ### The index -/

/-- Settles O19: rows 20 and 30 of the map; the operand as a 16-bit value, and a sum of two 16-bit values. -/
theorem indexLoadAndAdd : Obligations.IndexLoadAndAdd := by
  refine ⟨rowDecodes_of_index 19, rowDecodes_of_index 29,
    fun nnn s => ⟨_, exec_ldI nnn s, toNat_addrWord nnn, keepsAllBut_setIndex s _⟩,
    fun x s => ⟨_, exec_addI x s, ?_, keepsAllBut_setIndex s _⟩⟩
  rw [setIndex_index, BitVec.toNat_add, toNat_byteWord]

theorem toNat_lowNibble (b : Byte) : (b &&& 0x0F).toNat = b.toNat % 16 :=
  (BitVec.toNat_and b 0x0F).trans (Nat.and_two_pow_sub_one_eq_mod b.toNat 4)

/-- R99: the largest address is 0x050 + 5 × 15, which 16 bits hold. -/
theorem toNat_glyphAddress (s : State) (x : Reg) :
    (s.glyphAddress x).toNat = 0x050 + (strideWord s.config.glyphStride).toNat * ((s.reg x).toNat % 16) := by
  have hstride : (strideWord s.config.glyphStride).toNat ≤ 5 := by cases s.config.glyphStride <;> decide
  have hdigit : (s.reg x).toNat % 16 ≤ 15 := Nat.le_of_lt_succ (Nat.mod_lt _ (by decide))
  have hproduct := Nat.mul_le_mul hstride hdigit
  rw [State.glyphAddress, BitVec.toNat_add, BitVec.toNat_mul, toNat_byteWord, toNat_lowNibble,
    show (0x050 : Word).toNat = 0x050 from rfl]
  omega

/-- Settles O20: row 31 of the map, and the two strides. -/
theorem glyphAddress : Obligations.GlyphAddress := by
  refine ⟨rowDecodes_of_index 30, fun x s => ⟨_, exec_ldF x s, fun hone => ?_, fun hfive => ?_,
    keepsAllBut_setIndex s _⟩⟩
  · rw [setIndex_index, toNat_glyphAddress, hone]
    exact congrArg _ (Nat.one_mul _)
  · rw [setIndex_index, toNat_glyphAddress, hfive]
    rfl

/-! ### The decimal digits -/

theorem toNat_hundreds (b : Byte) : (hundreds b).toNat = b.toNat / 100 := by
  have hb : b.toNat < 256 := b.isLt
  rw [hundreds, BitVec.toNat_ofNat]
  omega

theorem toNat_tens (b : Byte) : (tens b).toNat = b.toNat / 10 % 10 := by
  rw [tens, BitVec.toNat_ofNat]
  omega

theorem toNat_ones (b : Byte) : (ones b).toNat = b.toNat % 10 := by
  rw [ones, BitVec.toNat_ofNat]
  omega

/-- The digits of a byte in the order of their addresses. -/
def decimalDigits (b : Byte) : List Byte := [hundreds b, tens b, ones b]

theorem exec_ldB_writeBytes (x : Reg) (s : State) :
    exec (.ldB x) s = .next (s.setMem (s.mem.writeBytes (s.addrAt 0) (decimalDigits (s.reg x)))) :=
  exec_ldB x s

theorem read_writeBytes_decimalDigits {s : State} (hwf : s.mem.wf = true) (b : Byte) {k : Nat} (hk : k < 3)
    (ha : s.addrAt k ≤ 0xFFF) :
    (s.mem.writeBytes (s.addrAt 0) (decimalDigits b)).read (s.addrAt k) = (decimalDigits b)[k] :=
  Memory.read_writeBytes_of_lt hwf hk ha

/-- Above 0xFFF any two states read alike, so only the addresses of memory have to be compared. -/
theorem memRead_eq_of_le {s t : State} {a : Nat} (h : a ≤ 0xFFF → t.memRead a = s.memRead a) :
    t.memRead a = s.memRead a := by
  by_cases ha : a ≤ 0xFFF
  · exact h ha
  · rw [memRead_of_gt t (by omega), memRead_of_gt s (by omega)]

/-- Settles O21: row 32 of the map; the three digits are written at consecutive addresses from I on. -/
theorem storeDecimalDigits : Obligations.StoreDecimalDigits := by
  refine ⟨rowDecodes_of_index 31, fun x s hwf => ⟨_, exec_ldB_writeBytes x s, fun h0 => ?_, fun h1 => ?_,
    fun h2 => ?_, fun a ha => memRead_eq_of_le fun hle => ?_, keepsAllBut_setMem s _⟩⟩
  · rw [memRead_setMem, read_writeBytes_decimalDigits hwf _ (by decide) h0]
    exact toNat_hundreds _
  · rw [memRead_setMem, read_writeBytes_decimalDigits hwf _ (by decide) h1]
    exact toNat_tens _
  · rw [memRead_setMem, read_writeBytes_decimalDigits hwf _ (by decide) h2]
    exact toNat_ones _
  · obtain ⟨h0, h1, h2⟩ := ha hle
    refine Memory.read_writeBytes_of_not_mem hwf ?_
    rw [show (decimalDigits (s.reg x)).length = 3 from rfl]
    unfold State.addrAt at *
    omega

/-! ### The register transfers -/

theorem memRead_storeRegs_regsUpTo {s : State} (hwf : s.mem.wf = true) {x r : Reg} (hr : r ≤ x)
    (ha : s.addrAt r.val ≤ 0xFFF) : (s.storeRegs (regsUpTo x)).memRead (s.addrAt r.val) = s.reg r :=
  memRead_storeRegs_of_mem hwf (nodup_regsUpTo x) ((mem_regsUpTo x r).2 hr) ha

theorem reg_loadRegs_of_le (s : State) {x r : Reg} (hr : r ≤ x) :
    (s.loadRegs (regsUpTo x)).reg r = s.memRead (s.addrAt r.val) :=
  (reg_loadRegs s r).trans (if_pos ((mem_regsUpTo x r).2 hr))

/-- Settles O22: row 33 of the map; each register up to V[x] has an address of its own. -/
theorem storeRegisters : Obligations.StoreRegisters := by
  refine ⟨rowDecodes_of_index 32, fun x s hwf => ⟨_, exec_ldMemVx x s, fun r hr ha => ?_,
    fun a ha => memRead_eq_of_le fun hle => ?_, keepsAllBut_storeRegs s _⟩⟩
  · exact memRead_storeRegs_regsUpTo hwf hr ha
  · exact memRead_storeRegs_of_not_mem hwf fun r hr => ha hle r ((mem_regsUpTo x r).1 hr)

/-- Settles O23: row 34 of the map; a register up to V[x] takes what memory reads as, the others are not in the list. -/
theorem loadRegisters : Obligations.LoadRegisters := by
  refine ⟨rowDecodes_of_index 33, fun x s => ⟨_, exec_ldVxMem x s, fun r hr _ => ?_, fun r hr ha => ?_,
    fun r hr => ?_, keepsAllBut_loadRegs s _⟩⟩
  · exact reg_loadRegs_of_le s hr
  · exact (reg_loadRegs_of_le s hr).trans (memRead_of_gt s ha)
  · exact exec_reg_of_not_mayWriteReg (exec_ldVxMem x s) hr

/-- Settles O24: the load reads, at the same addresses, the bytes that the store left. -/
theorem storeThenLoadRestores : Obligations.StoreThenLoadRestores := by
  intro x s t u hwf hx hstore hmem hindex
  have hkept : t.index = s.index := exec_keepsAllBut hstore .index (by simp [mayWrite])
  cases hstore
  refine ⟨_, exec_ldVxMem x u, fun r hr => ?_⟩
  have haddr : u.addrAt r.val = s.addrAt r.val := by rw [State.addrAt, hindex, hkept, State.addrAt]
  have hle : s.addrAt r.val ≤ 0xFFF := (Nat.add_le_add_left hr _).trans hx
  calc (u.loadRegs (regsUpTo x)).reg r = u.memRead (s.addrAt r.val) := by rw [reg_loadRegs_of_le u hr, haddr]
    _ = (s.storeRegs (regsUpTo x)).memRead (s.addrAt r.val) := hmem _
    _ = s.reg r := memRead_storeRegs_regsUpTo hwf hr hle

end Sys2Proof.Proofs
end

section
/-! The proofs of the family 44_display: CLS, and DRW as one exclusive or of the sprite's bits onto the display. Drawing
twice is two uses of what drawing once does, since the second draw meets the same bits. -/

namespace Sys2Proof.Proofs

open Sys2Proof Sys2Proof.Machine Sys2Proof.Claims

/-! ### Clearing -/

/-- Settles O26: row 1 of the map, and the write of the blank display. -/
theorem clearDisplay : Obligations.ClearDisplay :=
  ⟨rowDecodes_of_index 0, fun s => ⟨_, exec_cls s, fun X Y _ _ => pixel_blank X Y, keepsAllBut_setFb s _⟩⟩

/-! ### The sprite's bits -/

theorem spriteX_eq_mod (s : State) (x : Reg) : s.spriteX x = (s.reg x).toNat % 64 :=
  (BitVec.toNat_and (s.reg x) 63).trans (Nat.and_two_pow_sub_one_eq_mod (s.reg x).toNat 6)

theorem spriteY_eq_mod (s : State) (y : Reg) : s.spriteY y = (s.reg y).toNat % 32 :=
  (BitVec.toNat_and (s.reg y) 31).trans (Nat.and_two_pow_sub_one_eq_mod (s.reg y).toNat 5)

/-- On the display the loops' bit is the statement's: both read the byte of row `Y - y0` at I, and the ranges agree. -/
theorem spritePixel_eq_spriteBit (s : State) (x y : Reg) (n : Nat) {X Y : Nat} (hX : X ≤ 63) (hY : Y ≤ 31) :
    spritePixel s.mem s.index.toNat (s.spriteX x) (s.spriteY y) 0 n X Y = spriteBit s x y n X Y := by
  rw [spriteX_eq_mod, spriteY_eq_mod]
  unfold spritePixel rowBit spriteBit
  rw [← Bool.and_assoc, ← Bool.decide_and]
  refine congrArg₂ _ (decide_eq_decide.2 ?_) rfl
  omega

/-- R106: a sprite has no bit outside the display. -/
theorem le_of_spritePixel {m : Memory} {base x0 y0 k count i j : Nat}
    (h : spritePixel m base x0 y0 k count i j = true) : i ≤ 63 ∧ j ≤ 31 := by
  simp only [spritePixel, rowBit, Bool.and_eq_true, decide_eq_true_eq] at h
  omega

/-! ### Drawing once -/

theorem pixel_drawn (s : State) (x y : Reg) (n : Nat) {X Y : Nat} (hX : X ≤ 63) (hY : Y ≤ 31) :
    (s.drawn x y n).1.pixel X Y = (s.fb.pixel X Y ^^ spriteBit s x y n X Y) := by
  rw [State.drawn, pixel_drawRows, spritePixel_eq_spriteBit s x y n hX hY]

theorem hit_drawn_iff_collides (s : State) (x y : Reg) (n : Nat) :
    (s.drawn x y n).2 = true ↔ Collides s x y n := by
  rw [State.drawn, hit_drawRows, or_iff_right Bool.false_ne_true]
  constructor
  · rintro ⟨X, Y, hbit, hon⟩
    obtain ⟨hX, hY⟩ := le_of_spritePixel hbit
    exact ⟨X, Y, hX, hY, hon, (spritePixel_eq_spriteBit s x y n hX hY).symm.trans hbit⟩
  · rintro ⟨X, Y, hX, hY, hon, hbit⟩
    exact ⟨X, Y, (spritePixel_eq_spriteBit s x y n hX hY).trans hbit, hon⟩

/-- Settles O27: row 23 of the map; the loops of R104 on one pixel, their collision, and the frame of DRW. -/
theorem drawSpriteXorsAndCollides : Obligations.DrawSpriteXorsAndCollides := by
  refine ⟨rowDecodes_of_index 22, fun x y n s => ⟨_, exec_drw x y n s, fun X Y hX hY => ?_, fun hcollides => ?_,
    fun hclear => ?_, fun r hr => ?_, ?_⟩⟩
  · exact pixel_drawn s x y n hX hY
  · rw [reg_setReg_self, (hit_drawn_iff_collides s x y n).2 hcollides, flagByte_true]
  · rw [reg_setReg_self, Bool.eq_false_iff.2 (mt (hit_drawn_iff_collides s x y n).1 hclear), flagByte_false]
  · exact exec_reg_of_not_mayWriteReg (exec_drw x y n s) hr
  · exact exec_keepsAllBut (exec_drw x y n s)

/-! ### Drawing twice -/

/-- The sprite's bits depend on memory, I and the coordinates only. -/
theorem spriteBit_congr {s t : State} {x y : Reg} (hmem : ∀ a, t.memRead a = s.memRead a) (hindex : t.index = s.index)
    (hx : (t.reg x).toNat % 64 = (s.reg x).toNat % 64) (hy : (t.reg y).toNat % 32 = (s.reg y).toNat % 32)
    (n X Y : Nat) : spriteBit t x y n X Y = spriteBit s x y n X Y := by
  simp only [spriteBit, State.addrAt, hmem, hindex, hx, hy]

/-- Where `t` is what drawing leaves, a pixel that the sprite's bit of 1 meets on in `t` was off before. -/
theorem collides_iff_turnsOn {s t : State} {x y : Reg} {n : Nat}
    (hbit : ∀ X Y, spriteBit t x y n X Y = spriteBit s x y n X Y)
    (hpixel : ∀ X Y, X ≤ 63 → Y ≤ 31 → t.fb.pixel X Y = (s.fb.pixel X Y ^^ spriteBit s x y n X Y)) :
    Collides t x y n ↔ TurnsOn s x y n := by
  refine exists_congr fun X => exists_congr fun Y => and_congr_right fun hX => and_congr_right fun hY => ?_
  rw [hbit, hpixel X Y hX hY]
  refine and_congr_left fun hone => ?_
  rw [hone, Bool.xor_true, Bool.not_eq_true']

/-- Settles O28: the second draw meets the same bits, and an exclusive or with the same bit twice changes nothing. -/
theorem drawingTwiceRestores : Obligations.DrawingTwiceRestores := by
  intro x y n s t hfirst hx hy
  have hkeeps : KeepsAllBut [.regs, .fb] s t := exec_keepsAllBut hfirst
  have hbit := spriteBit_congr (hkeeps .mem (by decide)) (hkeeps .index (by decide)) hx hy n
  have hpixel : ∀ X Y, X ≤ 63 → Y ≤ 31 → t.fb.pixel X Y = (s.fb.pixel X Y ^^ spriteBit s x y n X Y) := by
    cases hfirst
    exact fun X Y hX hY => pixel_drawn s x y n hX hY
  obtain ⟨u, hsecond, hpixel', hhit, hmiss, -⟩ := drawSpriteXorsAndCollides.2 x y n t
  rw [collides_iff_turnsOn hbit hpixel] at hhit hmiss
  refine ⟨u, hsecond, fb_ext fun X Y hX hY => ?_, hhit, hmiss⟩
  calc u.fb.pixel X Y = ((s.fb.pixel X Y ^^ spriteBit s x y n X Y) ^^ spriteBit s x y n X Y) := by
        rw [hpixel' X Y hX hY, hbit, hpixel X Y hX hY]
    _ = s.fb.pixel X Y := by rw [Bool.xor_assoc, Bool.xor_self, Bool.xor_false]

end Sys2Proof.Proofs
end

section
/-! The proofs of the family 45_timers_keypad: the skips on a key, the wait for a key in its two cases, and the moves to
and from the timers. -/

namespace Sys2Proof.Proofs

open Sys2Proof Sys2Proof.Machine Sys2Proof.Claims

/-! ### The keys -/

theorem not_keyDown_iff (keys : BitVec 16) (k : Byte) :
    (!keyDown keys k) = true ↔ ¬ (k.toNat ≤ 0xF ∧ keys.getLsbD k.toNat = true) := by
  rw [Bool.not_eq_true', Bool.eq_false_iff, Ne, keyDown_iff]

theorem eq_zero_of_no_key_down {keys : BitVec 16} (hup : ∀ k, k < 16 → keys.getLsbD k = false) : keys = 0 :=
  BitVec.eq_of_getLsbD_eq fun k hk => (hup k hk).trans BitVec.getLsbD_zero.symm

/-- The converse of `lowestKey_some`: two keys that are both the lowest one down are the same key. -/
theorem lowestKey_eq_some {keys : BitVec 16} {k : Nat} (hdown : keys.getLsbD k = true)
    (hlowest : ∀ j, j < k → keys.getLsbD j = false) : lowestKey keys = some k := by
  cases hfound : lowestKey keys with
  | none =>
    rw [(lowestKey_none_iff keys).1 hfound] at hdown
    exact absurd hdown (by simp)
  | some j =>
    obtain ⟨hdown', -, hlowest'⟩ := lowestKey_some hfound
    have hkj : ¬ k < j := fun hlt => Bool.false_ne_true ((hlowest' k hlt).symm.trans hdown)
    have hjk : ¬ j < k := fun hlt => Bool.false_ne_true ((hlowest j hlt).symm.trans hdown')
    exact congrArg some (by omega)

/-- Settles O29: rows 24 and 25 of the map, and the test of a key, which a number above 0xF fails (D10). -/
theorem skipOnKey : Obligations.SkipOnKey :=
  ⟨rowDecodes_of_index 23, rowDecodes_of_index 24, fun x s =>
    ⟨⟨_, exec_skp x s, skips_setPc_ite s (keyDown_iff _ _)⟩,
      ⟨_, exec_sknp x s, skips_setPc_ite s (not_keyDown_iff _ _)⟩⟩⟩

/-- Settles O30: row 27 of the map; with no key down pc goes back onto the instruction, and else the lowest key down,
which a byte holds, is written to V[x]. -/
theorem waitForKey : Obligations.WaitForKey := by
  refine ⟨rowDecodes_of_index 26, fun x s hup => ?_, fun x s k hk hdown hlowest => ?_⟩
  · exact ⟨_, exec_ldVxK_up x (eq_zero_of_no_key_down hup), rfl, keepsAllBut_setPc s _⟩
  · refine ⟨_, exec_ldVxK_down x (lowestKey_eq_some hdown hlowest), ?_, onlyReg_setReg s x _⟩
    rw [reg_setReg_self, BitVec.toNat_ofNat]
    omega

/-! ### The timers -/

/-- Settles O31: rows 26, 28 and 29 of the map, and one write for each instruction: to V[x], to DT and to ST. -/
theorem timerAccess : Obligations.TimerAccess :=
  ⟨rowDecodes_of_index 25, rowDecodes_of_index 27, rowDecodes_of_index 28, fun x s =>
    ⟨⟨_, exec_ldVxDt x s, reg_setReg_self s x _, onlyReg_setReg s x _⟩,
      ⟨_, exec_ldDtVx x s, rfl, keepsAllBut_setDt s _⟩,
      ⟨_, exec_ldStVx x s, rfl, keepsAllBut_setSt s _⟩⟩⟩

end Sys2Proof.Proofs
end

section
/-! The proofs of the family 60_exceptions: the steps of a quiet host counted along a run, the outputs and the host's
parts across a slot, the one fault, and where the host's moves land. -/

namespace Sys2Proof.Proofs

open Sys2Proof Sys2Proof.Machine Sys2Proof.Claims

/-! ### Runs -/

/-- A run of `n + 1` steps is its first step, then a run of `n`. -/
theorem coreRun_succ {M : Host.Core} {s t : M.State} (n : Nat) (h : M.step s = .next t) :
    M.run (n + 1) s = M.run n t := by
  simp only [Host.Core.run, h]

theorem run_succ {s t : State} (n : Nat) (h : step s = .next t) : run (n + 1) s = run n t :=
  coreRun_succ (M := Sys2Proof.core) n h

/-- With a quiet host the core moves, from the state without the last events. -/
theorem step_quiet {s : State} (h : s.script = []) : step s = coreMove (s.setOut []) :=
  step_core (turn_quiet (s := s.setOut []) h)

/-- With a quiet host, the next step inside a tick is a slot. -/
theorem slotNext_quiet {s : State} {n : Nat} (h : s.script = []) (hn : s.slotsLeft = n + 1) :
    SlotNext s (((s.setOut []).setScript []).setSlotsLeft n) :=
  ⟨n, [], hn, rfl, .inl ⟨h, rfl⟩⟩

/-- With a quiet host, a block that is not Running, or is faulted, lets the TICK at a boundary pass. -/
theorem step_idle_tick {s : State} (h0 : s.slotsLeft = 0) (hscript : s.script = [])
    (hidle : s.runState ≠ .running ∨ s.Faulted) : step s = .next (s.setOut []) := by
  rw [step_quiet hscript, coreMove_tick (s := s.setOut []) h0, tick_idle (s := s.setOut []) hidle]

/-! ### A faulted core -/

/-- With a quiet host, a faulted core at most counts a slot off. -/
theorem step_faulted_quiet {s : State} (hf : s.Faulted) (hscript : s.script = []) :
    ∃ m, step s = .next ((s.setOut []).setSlotsLeft m) := by
  cases hslots : s.slotsLeft with
  | zero => exact ⟨s.slotsLeft, step_idle_tick hslots hscript (.inr hf)⟩
  | succ m =>
    refine ⟨m, ?_⟩
    rw [step_quiet hscript, coreMove_slot (s := s.setOut []) hslots]
    exact executeOne_faulted hf

/-- Settles O45: by induction on the number of steps, each of which leaves the core faulted and the host quiet. -/
theorem faultedCoreIsQuiescent : Obligations.FaultedCoreIsQuiescent := by
  intro n
  induction n with
  | zero => exact fun s _ _ => ⟨s, rfl, .refl _ s⟩
  | succ n ih =>
    intro s hf hscript
    obtain ⟨m, hstep⟩ := step_faulted_quiet hf hscript
    obtain ⟨t, hrun, hframe⟩ := ih ((s.setOut []).setSlotsLeft m) hf hscript
    have hfirst : KeepsAllBut [.slots, .out] s ((s.setOut []).setSlotsLeft m) :=
      (keepsAllBut_append (keepsAllBut_setOut s []) (keepsAllBut_setSlotsLeft _ m)).mono (by decide)
    exact ⟨t, (run_succ n hstep).trans hrun, hfirst.trans hframe⟩

/-! ### The slots of a tick -/

/-- A slot writes none of the host's parts but the outputs. -/
theorem executeOne_keeps_hostPart {s t : State} {p : Part} (h : executeOne s = .next t) (hp : p ∈ hostParts)
    (hout : p ≠ .out) : Keeps s t p := by
  have hpc : p ≠ .pc := by rintro rfl; exact absurd hp (by decide)
  exact executeOne_keeps h (by simp [hout, hpc]) fun i _ => not_mem_mayWrite_of_hostPart i p hp

/-- With a quiet host, a step inside a tick counts one slot off, and the control state stays. -/
theorem step_slot_quiet {s : State} {n : Nat} (hn : s.slotsLeft = n + 1) (hscript : s.script = []) :
    ∃ t, step s = .next t ∧ t.slotsLeft = n ∧ t.runState = s.runState ∧ t.script = [] := by
  obtain ⟨t, ht⟩ := executeOne_next (((s.setOut []).setScript []).setSlotsLeft n)
  have hkept {p : Part} := executeOne_keeps_hostPart (p := p) ht
  exact ⟨t, (step_of_slotNext (slotNext_quiet hscript hn)).trans ht, hkept (p := .slots) (by decide) (by decide),
    hkept (p := .runState) (by decide) (by decide), hkept (p := .script) (by decide) (by decide)⟩

/-- With a quiet host, `k` steps inside a tick count `k` slots off, and the control state stays. -/
theorem run_slots_quiet (k : Nat) : ∀ s : State, k ≤ s.slotsLeft → s.script = [] →
    ∃ t, run k s = .next t ∧ t.slotsLeft = s.slotsLeft - k ∧ t.runState = s.runState ∧ t.script = [] := by
  induction k with
  | zero => exact fun s _ hscript => ⟨s, rfl, rfl, rfl, hscript⟩
  | succ k ih =>
    intro s hk hscript
    have hn : s.slotsLeft = (s.slotsLeft - 1) + 1 := by omega
    obtain ⟨u, hstep, hslots, hrun, hquiet⟩ := step_slot_quiet hn hscript
    obtain ⟨t, hrest, hslots', hrun', hquiet'⟩ := ih u (by omega) hquiet
    exact ⟨t, (run_succ k hstep).trans hrest, by omega, hrun'.trans hrun, hquiet'⟩

/-- Settles O46: the TICK is idle, or lowers the timers and sets the count that the slots then bring down to 0. -/
theorem tickRunsItsSlots : Obligations.TickRunsItsSlots := by
  intro s h0 hscript
  refine ⟨step_idle_tick h0 hscript, fun hrun hf => ?_⟩
  have hsafe : s.fault.cause = .noFault := not_not.1 hf
  have htick := tick_running (s := s.setOut []) hrun hsafe
  have hcount : (s.setOut []).tick.slotsLeft = s.config.tickRate := by rw [htick]; rfl
  have hframe := keepsAllBut_tick (s.setOut [])
  refine ⟨(s.setOut []).tick, ?_, ?_, ?_, ?_, fun k hk => ?_⟩
  · rw [step_quiet hscript, coreMove_tick (s := s.setOut []) h0]
  · rw [htick]; exact timerTick_toNat s.dt
  · rw [htick]; exact timerTick_toNat s.st
  · exact (keepsAllBut_append (keepsAllBut_setOut s []) hframe).mono (by decide)
  · have hstate : (s.setOut []).tick.runState = .running := (hframe .runState (by decide)).trans hrun
    have hquiet : (s.setOut []).tick.script = [] := (hframe .script (by decide)).trans hscript
    obtain ⟨u, hu, hslots, hstate', hquiet'⟩ := run_slots_quiet k _ (hcount ▸ hk) hquiet
    exact ⟨u, hu, hcount ▸ hslots, hstate'.trans hstate, hquiet'⟩

/-! ### The fault -/

/-- Settles O36: by its frame the instruction is a CALL, and one with room keeps the fault register. -/
theorem onlyFullCallFaults : Obligations.OnlyFullCallFaults := by
  intro i s t h hne
  have hw : Part.fault ∈ mayWrite i := by
    by_contra hw
    exact hne (exec_keepsAllBut h .fault hw)
  obtain ⟨nnn, rfl⟩ := fault_mem_mayWrite hw
  rcases exec_call_cases h with ⟨-, rfl⟩ | ⟨hfull, -⟩
  · exact absurd rfl hne
  · exact ⟨⟨nnn, rfl⟩, (stackFull_iff s).1 hfull⟩

/-- Where no register changed, no REG_CHANGE event is emitted. -/
theorem regChanges_eq_nil {s t : State} (h : Keeps s t .regs) : regChanges s t = [] :=
  List.filterMap_eq_nil_iff.2 fun r _ => if_pos (h r)

/-- A part that is kept after all need not be listed. -/
theorem keepsAllBut_of_cons {p : Part} {ps : List Part} {s t : State} (h : KeepsAllBut (p :: ps) s t)
    (hp : Keeps s t p) : KeepsAllBut ps s t := by
  intro q hq
  by_cases hqp : q = p
  · exact hqp ▸ hp
  · exact h q (by simp [hqp, hq])

/-- Settles O41: the CALL puts pc back onto itself and records the fetch, and with no register changed its TRACE event is
the only one. -/
theorem faultIsPrecise : Obligations.FaultIsPrecise := by
  intro s nnn hf hp hd hfull
  obtain ⟨t, hexec, hslot⟩ := executeOne_runs_decoded hf hp hd
  obtain ⟨-, -, hcall⟩ := callSubroutine
  obtain ⟨u, hfaulted, hpc, hfault, hframe⟩ := hcall nnn s.fetched s.pc s.fetchWord hfull rfl hd
  cases hexec.symm.trans hfaulted
  have hregs : regChanges s t = [] := regChanges_eq_nil (hframe .regs (by decide))
  have hout : t.out = s.out ++ [.trace s.fetchWord] := hframe .out (by decide)
  have hall : KeepsAllBut [.pc, .fault, .out] s (t.setOut (t.out ++ regChanges s t)) :=
    (keepsAllBut_append (keepsAllBut_append (keepsAllBut_fetched s) hframe) (keepsAllBut_setOut t _)).mono (by decide)
  refine ⟨_, hslot, hfault, ?_, keepsAllBut_of_cons hall hpc⟩
  rw [setOut_out, hregs, List.append_nil, hout]

/-! ### The outputs -/

/-- Everything a slot emits: TRACE events, then the REG_CHANGE events of what it changed. -/
theorem executeOne_out {s t : State} (h : executeOne s = .next t) :
    ∃ traced : List Output, (∀ e ∈ traced, ∃ op, e = .trace op) ∧ t.out = s.out ++ traced ++ regChanges s t := by
  have htrace : ∀ e ∈ [Output.trace s.fetchWord], ∃ op, e = .trace op :=
    fun e he => ⟨s.fetchWord, List.mem_singleton.1 he⟩
  have hnone {t : State} (traced : List Output) (hregs : Keeps s t .regs) (hout : t.out = s.out ++ traced) :
      t.out = s.out ++ traced ++ regChanges s t := by rw [regChanges_eq_nil hregs, List.append_nil, hout]
  rcases executeOne_cases h with ⟨-, rfl⟩ | ⟨-, -, rfl⟩ | ⟨-, -, -, rfl⟩ | ⟨-, -, i, u, -, hexec, rfl⟩
  · exact ⟨[], nofun, hnone [] (fun _ => rfl) (List.append_nil _).symm⟩
  · exact ⟨[], nofun, hnone [] (fun _ => rfl) (List.append_nil _).symm⟩
  · exact ⟨_, htrace, hnone _ (fun _ => rfl) rfl⟩
  · have hout : u.out = s.out ++ [.trace s.fetchWord] :=
      exec_keepsAllBut hexec .out (not_mem_mayWrite_of_hostPart i .out (by decide))
    refine ⟨_, htrace, ?_⟩
    rw [← hout]
    rfl

/-- Settles O43: a TRACE event is no REG_CHANGE event, and with no events before the slot the rest are `regChanges`. -/
theorem registerChangesAreReported : Obligations.RegisterChangesAreReported := by
  intro s u t hslot hempty hstep r x
  rw [step_of_slotNext hslot] at hstep
  obtain ⟨traced, htraced, hout⟩ := executeOne_out hstep
  have hnot : Output.regChange r x ∉ traced := fun hmem => by
    obtain ⟨op, hop⟩ := htraced _ hmem
    cases hop
  rw [hout, hempty, List.nil_append, List.mem_append, or_iff_right hnot, mem_regChanges]

/-- Settles O42: a step first drops the events of the last one, and then it is the same state. -/
theorem observersAffectNothing : Obligations.ObserversAffectNothing := by
  intro s events
  have hdropped : (s.setOut events).setOut [] = s.setOut [] := rfl
  rw [step, step, takeTurn, takeTurn, hdropped]

/-! ### Every step -/

theorem coreMove_next (s : State) : ∃ t, coreMove s = .next t := by
  cases hslots : s.slotsLeft with
  | zero => exact ⟨s.tick, coreMove_tick hslots⟩
  | succ n =>
    rw [coreMove_slot hslots]
    exact executeOne_next _

/-- Settles O44: a move of the host, a TICK and a slot each answer a next state. -/
theorem everyStepAnswersNext : Obligations.EveryStepAnswersNext := by
  intro s
  cases hturn : (s.setOut []).turn with
  | host t => exact ⟨t, step_host hturn⟩
  | core u =>
    rw [step_core hturn]
    exact coreMove_next u

/-! ### The host's moves -/

/-- A command inside a tick waits: the slot starts with the script as it is. -/
theorem slotNext_command {s : State} {c : Command} {rest : List HostMove} {n : Nat}
    (hscript : s.script = .command c :: rest) (hn : s.slotsLeft = n + 1) : SlotNext s ((s.setOut []).setSlotsLeft n) :=
  ⟨n, s.script, hn, rfl, .inr (.inr ⟨c, rest, hscript, rfl⟩)⟩

theorem keepsAllBut_setKeypad (s : State) (keys : BitVec 16) : KeepsAllBut [.keypad] s (s.setKeypad keys) := by
  intro p hp; cases p <;> simp_all [Keeps]

/-- Settles O50: the host moves for a keypad change and for a command at a boundary; inside a tick the core does, and a
slot keeps the script. -/
theorem hostMovesLandWhereTheyMay : Obligations.HostMovesLandWhereTheyMay := by
  refine ⟨fun s keys rest hscript => ?_, fun s c rest hscript h0 => ?_, fun s c rest n hscript hn => ?_⟩
  · refine ⟨_, step_host (turn_keypad (s := s.setOut []) hscript), rfl, rfl, ?_⟩
    exact (keepsAllBut_append (keepsAllBut_append (keepsAllBut_setOut s []) (keepsAllBut_setScript _ rest))
      (keepsAllBut_setKeypad _ keys)).mono (by decide)
  · exact step_host (turn_command (s := s.setOut []) hscript h0)
  · have hslot := step_of_slotNext (slotNext_command hscript hn)
    refine ⟨hslot, fun t ht => ?_⟩
    have hkept : Keeps ((s.setOut []).setSlotsLeft n) t .script :=
      executeOne_keeps_hostPart (hslot.symm.trans ht) (by decide) (by decide)
    exact hkept

end Sys2Proof.Proofs
end

section
/-! The proofs of the family 70_reset_and_hazards: the reset and what the commands make of it, the pause, and the
self-jump. After a reset the block is Stopped, so loading a ROM in any other state is a reset and a load in Stopped. -/

namespace Sys2Proof.Proofs

open Sys2Proof Sys2Proof.Machine Sys2Proof.Claims

/-! ### The self-jump -/

/-- A self-jump is about the fault register, pc and memory only. -/
theorem spinning_of_keeps {s t : State} (h : s.Spinning) (hfault : Keeps s t .fault) (hpc : Keeps s t .pc)
    (hmem : Keeps s t .mem) : t.Spinning := by
  have hfault : t.fault = s.fault := hfault
  have hpc : t.pc = s.pc := hpc
  have hmem : ∀ a, t.memRead a = s.memRead a := hmem
  simpa only [State.Spinning, State.fetchWord, hfault, hpc, hmem] using h

/-- A slot on a self-jump leaves pc where it was and emits events. -/
theorem executeOne_spinning {s : State} (h : s.Spinning) : ∃ t, executeOne s = .next t ∧ KeepsAllBut [.out] s t := by
  obtain ⟨hsafe, hinside, nnn, hjump, hself⟩ := h
  obtain ⟨t, hexec, hslot⟩ := executeOne_runs_decoded hsafe hinside hjump
  have hall : KeepsAllBut [.pc, .out] s (t.setOut (t.out ++ regChanges s t)) :=
    (keepsAllBut_append (keepsAllBut_append (keepsAllBut_fetched s) (exec_keepsAllBut hexec))
      (keepsAllBut_setOut t _)).mono (by simp [mayWrite])
  cases hexec
  exact ⟨_, hslot, keepsAllBut_of_cons hall hself⟩

/-- With a quiet host, a step on a self-jump is a TICK or a slot that goes back to it. -/
theorem step_spinning_quiet {s : State} (h : s.Spinning) (hscript : s.script = []) :
    ∃ t, step s = .next t ∧ KeepsAllBut [.dt, .st, .slots, .out] s t := by
  rw [step_quiet hscript]
  cases hslots : s.slotsLeft with
  | zero =>
    exact ⟨_, coreMove_tick (s := s.setOut []) hslots,
      (keepsAllBut_append (keepsAllBut_setOut s []) (keepsAllBut_tick _)).mono (by decide)⟩
  | succ n =>
    have hstart : KeepsAllBut [.out, .slots] s ((s.setOut []).setSlotsLeft n) :=
      keepsAllBut_append (keepsAllBut_setOut s []) (keepsAllBut_setSlotsLeft _ n)
    obtain ⟨t, hslot, hframe⟩ := executeOne_spinning (s := (s.setOut []).setSlotsLeft n) h
    exact ⟨t, (coreMove_slot (s := s.setOut []) hslots).trans hslot, (keepsAllBut_append hstart hframe).mono (by decide)⟩

/-- Settles O48: by induction on the number of steps, each of which keeps what the self-jump is about and the script. -/
theorem spinChangesOnlyTimers : Obligations.SpinChangesOnlyTimers := by
  intro n
  induction n with
  | zero => exact fun s hspin _ => ⟨s, rfl, hspin, .refl _ s⟩
  | succ n ih =>
    intro s hspin hscript
    obtain ⟨u, hstep, hfirst⟩ := step_spinning_quiet hspin hscript
    have hspin' : u.Spinning :=
      spinning_of_keeps hspin (hfirst .fault (by decide)) (hfirst .pc (by decide)) (hfirst .mem (by decide))
    obtain ⟨t, hrun, hlast, hrest⟩ := ih u hspin' ((hfirst .script (by decide)).trans hscript)
    exact ⟨t, (run_succ n hstep).trans hrun, hlast, hfirst.trans hrest⟩

/-! ### START and TOGGLE_PAUSE -/

theorem keepsAllBut_setRunState (s : State) (x : RunState) : KeepsAllBut [.runState] s (s.setRunState x) := by
  intro p hp; cases p <;> simp_all [Keeps]

theorem start_of_stopped {s : State} (h : s.runState = .stopped) : s.start = s.setRunState .running := by
  simp [State.start, h]

theorem start_of_not_stopped {s : State} (h : s.runState ≠ .stopped) : s.start = s := by
  unfold State.start
  cases hr : s.runState
  · exact absurd hr h
  · rfl
  · rfl

theorem togglePause_of_stopped {s : State} (h : s.runState = .stopped) : s.togglePause = s := by
  simp [State.togglePause, h]

theorem togglePause_of_running {s : State} (h : s.runState = .running) : s.togglePause = s.setRunState .paused := by
  simp [State.togglePause, h]

theorem togglePause_of_paused {s : State} (h : s.runState = .paused) : s.togglePause = s.setRunState .running := by
  simp [State.togglePause, h]

theorem keepsAllBut_start (s : State) : KeepsAllBut [.runState] s s.start := by
  by_cases h : s.runState = .stopped
  · rw [start_of_stopped h]; exact keepsAllBut_setRunState s _
  · rw [start_of_not_stopped h]; exact .refl _ s

theorem keepsAllBut_togglePause (s : State) : KeepsAllBut [.runState] s s.togglePause := by
  cases h : s.runState
  · rw [togglePause_of_stopped h]; exact .refl _ s
  · rw [togglePause_of_running h]; exact keepsAllBut_setRunState s _
  · rw [togglePause_of_paused h]; exact keepsAllBut_setRunState s _

/-- Settles O53: each command in each control state. -/
theorem startAndTogglePause : Obligations.StartAndTogglePause := by
  refine ⟨fun s => ⟨keepsAllBut_start s, ?_⟩, fun s => ⟨keepsAllBut_togglePause s, fun h => ?_, fun h => ?_, fun h => ?_⟩⟩
  · by_cases h : s.runState = .stopped
    · rw [if_pos h, State.obey, start_of_stopped h, setRunState_runState]
    · rw [if_neg h, State.obey, start_of_not_stopped h]
  · rw [State.obey, togglePause_of_running h, setRunState_runState]
  · rw [State.obey, togglePause_of_paused h, setRunState_runState]
  · rw [State.obey, togglePause_of_stopped h, h]

/-! ### The pause -/

/-- A TOGGLE_PAUSE that is next in the script lands at a boundary. -/
theorem step_togglePause {s : State} {rest : List HostMove} (h0 : s.slotsLeft = 0)
    (hscript : s.script = .command .togglePause :: rest) :
    step s = .next ((s.setOut []).setScript rest).togglePause :=
  step_host (turn_command (s := s.setOut []) hscript h0)

/-- A block that is not Running lets a TICK at a boundary pass. -/
theorem step_pass_idle {s : State} {rest : List HostMove} (h0 : s.slotsLeft = 0) (hidle : s.runState ≠ .running)
    (hscript : s.script = .pass :: rest) : step s = .next ((s.setOut []).setScript rest) := by
  rw [step_core (turn_pass (s := s.setOut []) hscript), coreMove_tick (s := (s.setOut []).setScript rest) h0,
    tick_idle (s := (s.setOut []).setScript rest) (.inl hidle)]

/-- A paused block lets any number of ticks pass and then, unpaused, is as it was but Running. -/
theorem run_ticks_unpause (n : Nat) (rest : List HostMove) : ∀ s : State, s.slotsLeft = 0 → s.runState = .paused →
    s.script = List.replicate n .pass ++ .command .togglePause :: rest →
    run (n + 1) s = .next (((s.setOut []).setScript rest).setRunState .running) := by
  induction n with
  | zero =>
    intro s h0 hpaused hscript
    rw [run_succ 0 (step_togglePause h0 hscript), togglePause_of_paused (s := (s.setOut []).setScript rest) hpaused]
    rfl
  | succ n ih =>
    intro s h0 hpaused hscript
    have hidle : s.runState ≠ .running := by simp [hpaused]
    exact (run_succ (n + 1) (step_pass_idle h0 hidle hscript)).trans (ih _ h0 hpaused rfl)

/-- Settles O49: pausing and unpausing take the control state away from Running and back, and the ticks between change
nothing. -/
theorem pauseResumesWhereItLeftOff : Obligations.PauseResumesWhereItLeftOff := by
  intro n s rest h0 hrunning hscript
  have hpause := step_togglePause h0 hscript
  rw [togglePause_of_running (s := (s.setOut []).setScript _) hrunning] at hpause
  refine ⟨_, (run_succ (n + 1) hpause).trans (run_ticks_unpause n rest _ h0 rfl rfl), rfl, ?_⟩
  have hall : KeepsAllBut [.runState, .script, .out] s (((s.setOut []).setScript rest).setRunState .running) :=
    (keepsAllBut_append (keepsAllBut_append (keepsAllBut_setOut s []) (keepsAllBut_setScript _ rest))
      (keepsAllBut_setRunState _ _)).mono (by decide)
  exact keepsAllBut_of_cons hall hrunning.symm

/-! ### The reset -/

/-- Reset memory is the reset image: the font at 0x050 to 0x09F, and zero outside. -/
theorem read_ofReset (font : Vector Byte 80) (a : Nat) : (Memory.ofReset font).read a = resetImage font a := by
  unfold resetImage
  split
  · next h =>
    obtain ⟨j, rfl⟩ := Nat.exists_eq_add_of_le h.1
    rw [Memory.read_ofReset_font font (by omega)]
    simp
  · next h => exact Memory.read_ofReset_zero font (by omega)

theorem memRead_resetAll (s : State) (a : Nat) : s.resetAll.memRead a = resetImage s.config.font a :=
  read_ofReset s.config.font a

/-- R132: the newly constructed block is in the reset state, so a reset leaves it as it is. -/
theorem resetAll_reset : State.reset.resetAll = State.reset := by decide

/-- Settles O52: the newly constructed block is one that a reset leaves. -/
theorem constructedInResetState : Obligations.ConstructedInResetState := by
  refine ⟨?_, rfl, rfl, fun a => ?_⟩
  · exact resetAll_reset ▸ resetButMemory_resetAll State.reset
  · calc State.reset.memRead a = State.reset.resetAll.memRead a := by rw [resetAll_reset]
      _ = resetImage State.reset.config.font a := memRead_resetAll State.reset a

/-- Settles O54: STOP is the reset, from every state. -/
theorem stopResets : Obligations.StopResets := fun s =>
  ⟨resetButMemory_resetAll s, rfl, memRead_resetAll s, ⟨rfl, rfl, rfl, rfl, rfl⟩, rfl⟩

/-! ### LOAD_ROM -/

/-- A ROM of at most 3584 bytes ends at 0xFFF, so each of its bytes is read back. -/
theorem read_writeBytes_rom {m : Memory} (hwf : m.wf = true) {b : List Byte} (hlen : b.length ≤ 3584) (a : Nat) :
    (m.writeBytes 0x200 b).read a = romOver b m.read a := by
  unfold romOver
  split
  · next h =>
    obtain ⟨k, rfl⟩ := Nat.exists_eq_add_of_le h.1
    have hk : k < b.length := by omega
    rw [Memory.read_writeBytes_of_lt hwf hk (by omega), Nat.add_sub_cancel_left, List.getD_eq_getElem b _ hk]
  · next h => exact Memory.read_writeBytes_of_not_mem hwf (by omega)

theorem loadRom_of_gt {s : State} {b : List Byte} (h : b.length > 3584) :
    s.loadRom b = s.setOut (s.out ++ [.loadStatus .turnedAway]) := if_pos h

theorem loadRom_of_stopped {s : State} {b : List Byte} (hlen : b.length ≤ 3584) (h : s.runState = .stopped) :
    s.loadRom b = (s.setMem (s.mem.writeBytes 0x200 b)).setOut (s.out ++ [.loadStatus .ok]) := by
  simp [State.loadRom, State.readyForRom, h, Nat.not_lt.2 hlen]

/-- R138: from Running or Paused the block is reset first. -/
theorem loadRom_of_not_stopped {s : State} {b : List Byte} (hlen : b.length ≤ 3584) (h : s.runState ≠ .stopped) :
    s.loadRom b = s.resetAll.loadRom b := by
  have hready : s.readyForRom = s.resetAll := by
    unfold State.readyForRom
    cases hr : s.runState
    · exact absurd hr h
    · rfl
    · rfl
  rw [loadRom_of_stopped (s := s.resetAll) hlen rfl, State.loadRom, if_neg (Nat.not_lt.2 hlen), hready]
  rfl

/-- A ROM loaded in Stopped: the events, what memory reads as, and the frame. -/
theorem loadRom_stopped_spec {s : State} {b : List Byte} (hlen : b.length ≤ 3584) (hwf : s.mem.wf = true)
    (h : s.runState = .stopped) :
    (s.loadRom b).out = s.out ++ [.loadStatus .ok] ∧ (∀ a, (s.loadRom b).memRead a = romOver b s.memRead a) ∧
    KeepsAllBut [.mem, .out] s (s.loadRom b) := by
  rw [loadRom_of_stopped hlen h]
  exact ⟨rfl, read_writeBytes_rom hwf hlen, keepsAllBut_append (keepsAllBut_setMem s _) (keepsAllBut_setOut _ _)⟩

/-- A ROM loaded after a reset lies over the reset image. -/
theorem memRead_loadRom_resetAll (s : State) {b : List Byte} (hlen : b.length ≤ 3584) (a : Nat) :
    (s.resetAll.loadRom b).memRead a = romOver b (resetImage s.config.font) a := by
  obtain ⟨-, hmem, -⟩ := loadRom_stopped_spec (s := s.resetAll) hlen (wf_resetAll s) rfl
  rw [hmem, funext (memRead_resetAll s)]

/-- The reset values are those of registers, I, pc, stack, timers, display and fault register. -/
theorem resetButMemory_of_keepsAllBut {s t : State} (h : s.ResetButMemory)
    (hframe : KeepsAllBut [.mem, .keypad, .runState, .config, .slots, .script, .rnd, .out] s t) : t.ResetButMemory where
  regs r := (hframe .regs (by decide) r).trans (h.regs r)
  index := (hframe .index (by decide)).trans h.index
  pc := (hframe .pc (by decide)).trans h.pc
  stack := (hframe .stack (by decide)).trans h.stack
  dt := (hframe .dt (by decide)).trans h.dt
  st := (hframe .st (by decide)).trans h.st
  fb := by rw [show t.fb = s.fb from hframe .fb (by decide)]; exact h.fb
  fault := (hframe .fault (by decide)).trans h.fault

/-- Settles O55: a ROM too long is turned away, one that fits is copied in Stopped, and in Running and Paused it is copied
after a reset. -/
theorem loadRom : Obligations.LoadRom := by
  refine ⟨fun s b hlen => ?_, fun s b hlen hwf h => loadRom_stopped_spec hlen hwf h, fun s b hlen h => ?_⟩
  · rw [State.obey, loadRom_of_gt hlen]
    exact ⟨rfl, keepsAllBut_setOut s _⟩
  · rw [State.obey, loadRom_of_not_stopped hlen h]
    obtain ⟨hout, -, hframe⟩ := loadRom_stopped_spec (s := s.resetAll) hlen (wf_resetAll s) rfl
    exact ⟨hout, memRead_loadRom_resetAll s hlen,
      resetButMemory_of_keepsAllBut (resetButMemory_resetAll s) (hframe.mono (by decide)), hframe .runState (by decide),
      hframe .keypad (by decide), hframe .config (by decide), hframe .script (by decide), hframe .rnd (by decide)⟩

/-- Settles O56: STOP is the reset, and LOAD_ROM and START change memory, the events and the control state only. -/
theorem stopLoadStartIsReproducible : Obligations.StopLoadStartIsReproducible := by
  rintro s b _ hlen rfl
  obtain ⟨-, -, hload⟩ := loadRom_stopped_spec (s := s.resetAll) hlen (wf_resetAll s) rfl
  have hstopped : (s.resetAll.loadRom b).runState = .stopped := hload .runState (by decide)
  have hframe : KeepsAllBut [.mem, .out, .runState] s.resetAll (s.resetAll.loadRom b).start :=
    keepsAllBut_append hload (keepsAllBut_start _)
  refine ⟨resetButMemory_of_keepsAllBut (resetButMemory_resetAll s) (hframe.mono (by decide)), ?_,
    hframe .slots (by decide), fun a => ?_, hframe .keypad (by decide), hframe .config (by decide)⟩
  · exact congrArg State.runState (start_of_stopped hstopped)
  · exact (keepsAllBut_start _ .mem (by decide) a).trans (memRead_loadRom_resetAll s hlen a)

end Sys2Proof.Proofs
end
